-- ==== Sys2Proof/Word.lean ====
section
/-! DEFINITION. The machine word and the byte (spec/00_scope.md R4: XLEN = 32; spec/20_memory.md R31: 8-bit bytes). -/

namespace Sys2Proof

/-- A 32-bit word: register contents, addresses, instruction words (R4, R5). -/
abbrev Word := BitVec 32

/-- A byte of memory (R31). -/
abbrev Byte := BitVec 8

end Sys2Proof
end

