-- ==== Sys2Proof/Config.lean ====
section
/-! DEFINITION. The parameters of the hardware (spec/00_scope.md R4; spec/92_eei_decisions.md "Open parameters,
collected") and the free values of the control-unit description (spec/91_not_in_source.md N6, N8, N21). -/

namespace Sys2Proof

/-- `BYTE_ORDER` (R4, D6); the spec's value is `little`. -/
inductive ByteOrder where
  | little
  | big
deriving DecidableEq, Repr

/-- `ADMIT` (R2, R4, D2): which evidence tiers are admitted; the spec's value is `all`. -/
inductive Admit where
  | t1
  | t1t2
  | all
deriving DecidableEq, Repr

/-- The configuration of one machine, constant through a run (R4, R39). `IMEM_WORDS` is the length of the program
image, which the state holds (R20). -/
structure Config where
  /-- `IMEM_BASE`: where the program image stands -/
  imemBase : Word
  /-- `RESET_PC` (R201) -/
  resetPc : Word
  /-- `DMEM_BASE` -/
  dmemBase : Word
  /-- `DMEM_SIZE`, in bytes -/
  dmemSize : Nat
  /-- `ADMIT` -/
  admitted : Admit
  /-- `BYTE_ORDER` -/
  byteOrder : ByteOrder
  /-- `FAULT_ON_STORE_TO_TEXT` (R45) -/
  faultOnStoreToText : Bool
deriving DecidableEq, Repr

/-- The configuration of the spec's test vectors (spec/95_test_vectors.md, head): the image and the reset vector at
0x1000, 0x1000 bytes of data memory at 0, and the spec's own values of the three other parameters (R4).
DESIGN CHOICE (log 3): the spec leaves the first four OPEN; statements hold for every configuration. -/
def Config.testVectors : Config where
  imemBase := 0x1000#32
  resetPc := 0x1000#32
  dmemBase := 0#32
  dmemSize := 0x1000
  admitted := .all
  byteOrder := .little
  faultOnStoreToText := false

/-- Free value (log 14): what the ALU answers on an `ALUControl` code the source does not assign (R125, N6). -/
opaque Config.freeAluResult : BitVec 3 → Word → Word → Word

/-- Free value (log 14): the flag `V` on an operation other than add and subtract (R128, N21). -/
opaque Config.freeFlagV : BitVec 3 → Word → Word → Bool

/-- Free value (log 14): the flag `C` on an operation other than add and subtract (R128, N21). -/
opaque Config.freeFlagC : BitVec 3 → Word → Word → Bool

/-- Free value (log 14): whether the ALU's `mux_1` passes `not_b` on a code other than add and subtract (R129 shows add
alone). -/
opaque Config.freeMux1 : BitVec 3 → Bool

/-- Free value (log 14): the ALU's `slt_instruction` outside the two cycles the source samples (R129, R131). -/
opaque Config.freeSltInstruction : BitVec 3 → Word → Word → Word

/-- Free value (log 14): what the extender assembles for the `ImmSrc` code 11, which the source does not use (R123). -/
opaque Config.freeImmediate : Word → Word

end Sys2Proof
end

