-- ==== Sys2Proof/Syntax.lean ====
section
/-! DEFINITION. The instructions: one constructor for each row of the opcode map (spec/30_encoding.md R66,
spec/opcode_table.json). -/

namespace Sys2Proof

/-- A general register's number, `x0` to `x31` (spec/10_state.md R10). -/
abbrev Reg := Fin 32

/-- The 21 instructions (R2, R66). Immediates stand as the encoding carries them: 12 bits for the I and S formats
(R60, R63), 5 bits for a shift amount (R61), 13 bits for a branch offset, whose bit 0 is 0 (R65). -/
inductive Instr where
  | lb (rd rs1 : Reg) (imm : BitVec 12)
  | lh (rd rs1 : Reg) (imm : BitVec 12)
  | lw (rd rs1 : Reg) (imm : BitVec 12)
  | lbu (rd rs1 : Reg) (imm : BitVec 12)
  | lhu (rd rs1 : Reg) (imm : BitVec 12)
  | addi (rd rs1 : Reg) (imm : BitVec 12)
  | slti (rd rs1 : Reg) (imm : BitVec 12)
  | sltiu (rd rs1 : Reg) (imm : BitVec 12)
  | xori (rd rs1 : Reg) (imm : BitVec 12)
  | ori (rd rs1 : Reg) (imm : BitVec 12)
  | andi (rd rs1 : Reg) (imm : BitVec 12)
  | slli (rd rs1 : Reg) (shamt : BitVec 5)
  | srli (rd rs1 : Reg) (shamt : BitVec 5)
  | srai (rd rs1 : Reg) (shamt : BitVec 5)
  | sw (rs2 rs1 : Reg) (imm : BitVec 12)
  | add (rd rs1 rs2 : Reg)
  | sub (rd rs1 rs2 : Reg)
  | slt (rd rs1 rs2 : Reg)
  | or (rd rs1 rs2 : Reg)
  | and (rd rs1 rs2 : Reg)
  | beq (rs1 rs2 : Reg) (offset : BitVec 13)
deriving DecidableEq, Repr

end Sys2Proof
end

