-- ==== Sys2Proof/WellFormed.lean ====
section
/-! DEFINITION. Which terms of `Instr` are instructions of the hardware. The types bound every operand but one: a branch
offset is even (spec/30_encoding.md R65: "13 bits, even"; R71). -/

namespace Sys2Proof

/-- A branch offset has bit 0 equal to 0: the encoding has no place for it (R64, R65). -/
def evenOffset (offset : BitVec 13) : Bool := !offset.getLsbD 0

/-- The check, constructor by constructor. -/
def Instr.wellFormed : Instr → Bool
  | .lb _ _ _ => true
  | .lh _ _ _ => true
  | .lw _ _ _ => true
  | .lbu _ _ _ => true
  | .lhu _ _ _ => true
  | .addi _ _ _ => true
  | .slti _ _ _ => true
  | .sltiu _ _ _ => true
  | .xori _ _ _ => true
  | .ori _ _ _ => true
  | .andi _ _ _ => true
  | .slli _ _ _ => true
  | .srli _ _ _ => true
  | .srai _ _ _ => true
  | .sw _ _ _ => true
  | .add _ _ _ => true
  | .sub _ _ _ => true
  | .slt _ _ _ => true
  | .or _ _ _ => true
  | .and _ _ _ => true
  | .beq _ _ offset => evenOffset offset

end Sys2Proof
end

