-- ==== Sys2Proof/Decode.lean ====
section
/-! DEFINITION. From bits to instructions and back (spec/30_encoding.md): the fields (R60 to R64), the immediates (R65),
the decoder with a name for every rejection (R66 to R68, R70, R73), the encoder, and the opcode map as rows of match and
mask (R66), against which the decoder is stated. -/

namespace Sys2Proof

/-! ### Bytes and words (spec/20_memory.md R30, R36) -/

/-- The 32-bit value of four bytes, the first at the lowest address. Little-endian: that byte is the least significant
(R30). Big-endian, the parameter's other value: that byte is the most significant (log 9). -/
def wordOfBytes (o : ByteOrder) (b0 b1 b2 b3 : Byte) : Word :=
  match o with
  | .little => b3 ++ b2 ++ b1 ++ b0
  | .big => b0 ++ b1 ++ b2 ++ b3

/-- The 16-bit value of two bytes, the first at the lower address (R30). -/
def halfOfBytes (o : ByteOrder) (b0 b1 : Byte) : BitVec 16 :=
  match o with
  | .little => b1 ++ b0
  | .big => b0 ++ b1

/-- The byte of `v` that stands `k` addresses above the lowest, for `k` below 4 (R30, R35). -/
def byteOfWord (o : ByteOrder) (v : Word) (k : Nat) : Byte :=
  match o with
  | .little => v.extractLsb' (8 * k) 8
  | .big => v.extractLsb' (8 * (3 - k)) 8

/-- The four bytes of a word in the order memory holds them. -/
def bytesOfWord (o : ByteOrder) (v : Word) : List Byte :=
  [byteOfWord o v 0, byteOfWord o v 1, byteOfWord o v 2, byteOfWord o v 3]

/-! ### Fields -/

/-- `op`, inst[6:0] (R60). -/
def opField (w : Word) : BitVec 7 := w.extractLsb' 0 7
/-- `funct3`, inst[14:12] (R60). -/
def funct3Field (w : Word) : BitVec 3 := w.extractLsb' 12 3
/-- `funct7`, inst[31:25] (R61, R62). -/
def funct7Field (w : Word) : BitVec 7 := w.extractLsb' 25 7
/-- A 5-bit field as a register number (R10). -/
def regOfBits (b : BitVec 5) : Reg := b.toFin
/-- A register number as a 5-bit field (R10). -/
def bitsOfReg (r : Reg) : BitVec 5 := BitVec.ofFin r
/-- `rd`, inst[11:7] (R60). -/
def rdField (w : Word) : Reg := regOfBits (w.extractLsb' 7 5)
/-- `rs1`, inst[19:15] (R60). -/
def rs1Field (w : Word) : Reg := regOfBits (w.extractLsb' 15 5)
/-- `rs2`, inst[24:20] (R62 to R64). -/
def rs2Field (w : Word) : Reg := regOfBits (w.extractLsb' 20 5)
/-- `imm[11:0]` of the I format, inst[31:20] (R60, R65). -/
def immIField (w : Word) : BitVec 12 := w.extractLsb' 20 12
/-- `shamt`, inst[24:20] (R61, R65). -/
def shamtField (w : Word) : BitVec 5 := w.extractLsb' 20 5
/-- `imm` of the S format, inst[31:25] above inst[11:7] (R63, R65). -/
def immSField (w : Word) : BitVec 12 := w.extractLsb' 25 7 ++ w.extractLsb' 7 5
/-- The offset of the B format: inst[31], inst[7], inst[30:25], inst[11:8], then a 0 (R64, R65). -/
def immBField (w : Word) : BitVec 13 :=
  w.extractLsb' 31 1 ++ w.extractLsb' 7 1 ++ w.extractLsb' 25 6 ++ w.extractLsb' 8 4 ++ 0#1

/-! ### The decoder -/

/-- Why a word (or a byte string) is no instruction (R68): one name for each group of the rule's table. -/
inductive Illegal where
  /-- fewer than four bytes: every instruction is one 32-bit word (R60, R70) -/
  | truncated
  /-- inst[1:0] is not 11 (R68, R70) -/
  | notThirtyTwoBit
  /-- the opcode is in no row (R68) -/
  | opcodeNotListed (op : BitVec 7)
  /-- op 0000011 with funct3 011, 110 or 111 (R67, R68) -/
  | loadWidthNotListed (funct3 : BitVec 3)
  /-- op 0010011, a shift, with another constant in bits 31:25 (R61, R68) -/
  | shiftConstantNotListed (funct3 : BitVec 3) (funct7 : BitVec 7)
  /-- op 0100011 with funct3 other than 010 (R68, R73) -/
  | storeWidthNotListed (funct3 : BitVec 3)
  /-- op 0110011 with a pair of funct7 and funct3 in no row (R68, R73) -/
  | registerOperationNotListed (funct7 : BitVec 7) (funct3 : BitVec 3)
  /-- op 1100011 with funct3 other than 000 (R68, R73) -/
  | branchConditionNotListed (funct3 : BitVec 3)
deriving DecidableEq, Repr

/-- The load group, op 0000011 (R66, R67). -/
def decodeLoad (w : Word) : Except Illegal Instr :=
  if funct3Field w = 0b000#3 then .ok (.lb (rdField w) (rs1Field w) (immIField w))
  else if funct3Field w = 0b001#3 then .ok (.lh (rdField w) (rs1Field w) (immIField w))
  else if funct3Field w = 0b010#3 then .ok (.lw (rdField w) (rs1Field w) (immIField w))
  else if funct3Field w = 0b100#3 then .ok (.lbu (rdField w) (rs1Field w) (immIField w))
  else if funct3Field w = 0b101#3 then .ok (.lhu (rdField w) (rs1Field w) (immIField w))
  else .error (.loadWidthNotListed (funct3Field w))

/-- The register-immediate group, op 0010011 (R66, R67). -/
def decodeOpImm (w : Word) : Except Illegal Instr :=
  if funct3Field w = 0b000#3 then .ok (.addi (rdField w) (rs1Field w) (immIField w))
  else if funct3Field w = 0b010#3 then .ok (.slti (rdField w) (rs1Field w) (immIField w))
  else if funct3Field w = 0b011#3 then .ok (.sltiu (rdField w) (rs1Field w) (immIField w))
  else if funct3Field w = 0b100#3 then .ok (.xori (rdField w) (rs1Field w) (immIField w))
  else if funct3Field w = 0b110#3 then .ok (.ori (rdField w) (rs1Field w) (immIField w))
  else if funct3Field w = 0b111#3 then .ok (.andi (rdField w) (rs1Field w) (immIField w))
  else if funct3Field w = 0b001#3 ∧ funct7Field w = 0b0000000#7 then
    .ok (.slli (rdField w) (rs1Field w) (shamtField w))
  else if funct3Field w = 0b101#3 ∧ funct7Field w = 0b0000000#7 then
    .ok (.srli (rdField w) (rs1Field w) (shamtField w))
  else if funct3Field w = 0b101#3 ∧ funct7Field w = 0b0100000#7 then
    .ok (.srai (rdField w) (rs1Field w) (shamtField w))
  else .error (.shiftConstantNotListed (funct3Field w) (funct7Field w))

/-- Op 0100011: SW alone (R66, R73). -/
def decodeStore (w : Word) : Except Illegal Instr :=
  if funct3Field w = 0b010#3 then .ok (.sw (rs2Field w) (rs1Field w) (immSField w))
  else .error (.storeWidthNotListed (funct3Field w))

/-- The R-type group, op 0110011 (R66, R73). -/
def decodeReg (w : Word) : Except Illegal Instr :=
  if funct7Field w = 0b0000000#7 ∧ funct3Field w = 0b000#3 then
    .ok (.add (rdField w) (rs1Field w) (rs2Field w))
  else if funct7Field w = 0b0100000#7 ∧ funct3Field w = 0b000#3 then
    .ok (.sub (rdField w) (rs1Field w) (rs2Field w))
  else if funct7Field w = 0b0000000#7 ∧ funct3Field w = 0b010#3 then
    .ok (.slt (rdField w) (rs1Field w) (rs2Field w))
  else if funct7Field w = 0b0000000#7 ∧ funct3Field w = 0b110#3 then
    .ok (.or (rdField w) (rs1Field w) (rs2Field w))
  else if funct7Field w = 0b0000000#7 ∧ funct3Field w = 0b111#3 then
    .ok (.and (rdField w) (rs1Field w) (rs2Field w))
  else .error (.registerOperationNotListed (funct7Field w) (funct3Field w))

/-- Op 1100011: BEQ alone (R66, R73). -/
def decodeBranch (w : Word) : Except Illegal Instr :=
  if funct3Field w = 0b000#3 then .ok (.beq (rs1Field w) (rs2Field w) (immBField w))
  else .error (.branchConditionNotListed (funct3Field w))

/-- The decoder of one instruction word, total, rejecting by name (R66 to R68). -/
def decodeWord (w : Word) : Except Illegal Instr :=
  if opField w = 0b0000011#7 then decodeLoad w
  else if opField w = 0b0010011#7 then decodeOpImm w
  else if opField w = 0b0100011#7 then decodeStore w
  else if opField w = 0b0110011#7 then decodeReg w
  else if opField w = 0b1100011#7 then decodeBranch w
  else if w.extractLsb' 0 2 ≠ 0b11#2 then .error .notThirtyTwoBit
  else .error (.opcodeNotListed (opField w))

/-- The decoder of bytes: an instruction and the bytes after it (R36, R60, R70). -/
def decode (o : ByteOrder) : List Byte → Except Illegal (Instr × List Byte)
  | b0 :: b1 :: b2 :: b3 :: rest =>
    match decodeWord (wordOfBytes o b0 b1 b2 b3) with
    | .ok i => .ok (i, rest)
    | .error e => .error e
  | _ => .error .truncated

/-- The instruction the decoder reads from a word as spec/opcode_table.json numbers its bits, stored little-endian. -/
def decodeTableWord (nbits w : Nat) : Option Instr :=
  match decode .little (bytesOfWord .little (BitVec.ofNat 32 (w % 2 ^ nbits))) with
  | .ok (i, _) => some i
  | .error _ => none

/-! ### The encoder -/

/-- The I format (R60). -/
def encodeI (op : BitVec 7) (funct3 : BitVec 3) (rd rs1 : Reg) (imm : BitVec 12) : Word :=
  imm ++ bitsOfReg rs1 ++ funct3 ++ bitsOfReg rd ++ op

/-- The shift-immediate variant of the I format (R61). -/
def encodeShift (funct7 : BitVec 7) (funct3 : BitVec 3) (rd rs1 : Reg) (shamt : BitVec 5) : Word :=
  funct7 ++ shamt ++ bitsOfReg rs1 ++ funct3 ++ bitsOfReg rd ++ 0b0010011#7

/-- The R format (R62). -/
def encodeR (funct7 : BitVec 7) (funct3 : BitVec 3) (rd rs1 rs2 : Reg) : Word :=
  funct7 ++ bitsOfReg rs2 ++ bitsOfReg rs1 ++ funct3 ++ bitsOfReg rd ++ 0b0110011#7

/-- The S format (R63). -/
def encodeS (funct3 : BitVec 3) (rs2 rs1 : Reg) (imm : BitVec 12) : Word :=
  imm.extractLsb' 5 7 ++ bitsOfReg rs2 ++ bitsOfReg rs1 ++ funct3 ++ imm.extractLsb' 0 5 ++ 0b0100011#7

/-- The B format (R64). -/
def encodeB (funct3 : BitVec 3) (rs1 rs2 : Reg) (offset : BitVec 13) : Word :=
  offset.extractLsb' 12 1 ++ offset.extractLsb' 5 6 ++ bitsOfReg rs2 ++ bitsOfReg rs1 ++ funct3
    ++ offset.extractLsb' 1 4 ++ offset.extractLsb' 11 1 ++ 0b1100011#7

/-- The word of an instruction, from the rows of the opcode map (R66). -/
def encode : Instr → Word
  | .lb rd rs1 imm => encodeI 0b0000011#7 0b000#3 rd rs1 imm
  | .lh rd rs1 imm => encodeI 0b0000011#7 0b001#3 rd rs1 imm
  | .lw rd rs1 imm => encodeI 0b0000011#7 0b010#3 rd rs1 imm
  | .lbu rd rs1 imm => encodeI 0b0000011#7 0b100#3 rd rs1 imm
  | .lhu rd rs1 imm => encodeI 0b0000011#7 0b101#3 rd rs1 imm
  | .addi rd rs1 imm => encodeI 0b0010011#7 0b000#3 rd rs1 imm
  | .slti rd rs1 imm => encodeI 0b0010011#7 0b010#3 rd rs1 imm
  | .sltiu rd rs1 imm => encodeI 0b0010011#7 0b011#3 rd rs1 imm
  | .xori rd rs1 imm => encodeI 0b0010011#7 0b100#3 rd rs1 imm
  | .ori rd rs1 imm => encodeI 0b0010011#7 0b110#3 rd rs1 imm
  | .andi rd rs1 imm => encodeI 0b0010011#7 0b111#3 rd rs1 imm
  | .slli rd rs1 shamt => encodeShift 0b0000000#7 0b001#3 rd rs1 shamt
  | .srli rd rs1 shamt => encodeShift 0b0000000#7 0b101#3 rd rs1 shamt
  | .srai rd rs1 shamt => encodeShift 0b0100000#7 0b101#3 rd rs1 shamt
  | .sw rs2 rs1 imm => encodeS 0b010#3 rs2 rs1 imm
  | .add rd rs1 rs2 => encodeR 0b0000000#7 0b000#3 rd rs1 rs2
  | .sub rd rs1 rs2 => encodeR 0b0100000#7 0b000#3 rd rs1 rs2
  | .slt rd rs1 rs2 => encodeR 0b0000000#7 0b010#3 rd rs1 rs2
  | .or rd rs1 rs2 => encodeR 0b0000000#7 0b110#3 rd rs1 rs2
  | .and rd rs1 rs2 => encodeR 0b0000000#7 0b111#3 rd rs1 rs2
  | .beq rs1 rs2 offset => encodeB 0b000#3 rs1 rs2 offset

/-! ### The opcode map as the spec tabulates it (R66) -/

/-- The instructions' names. -/
inductive Mnemonic where
  | LB | LH | LW | LBU | LHU
  | ADDI | SLTI | SLTIU | XORI | ORI | ANDI
  | SLLI | SRLI | SRAI
  | SW | ADD | SUB | SLT | OR | AND | BEQ
deriving DecidableEq, Repr

/-- Evidence tiers (R2). -/
inductive Tier where
  | t1 | t2 | t3
deriving DecidableEq, Repr

/-- One row of the table of R66. -/
structure OpcodeRow where
  mnemonic : Mnemonic
  pattern : Word
  mask : Word
  tier : Tier
deriving DecidableEq, Repr

/-- The rows of R66 for op 0000011. -/
def loadRows : List OpcodeRow :=
  [⟨.LB, 0x00000003#32, 0x0000707F#32, .t2⟩, ⟨.LH, 0x00001003#32, 0x0000707F#32, .t2⟩,
   ⟨.LW, 0x00002003#32, 0x0000707F#32, .t1⟩, ⟨.LBU, 0x00004003#32, 0x0000707F#32, .t2⟩,
   ⟨.LHU, 0x00005003#32, 0x0000707F#32, .t2⟩]

/-- The rows of R66 for op 0010011. -/
def opImmRows : List OpcodeRow :=
  [⟨.ADDI, 0x00000013#32, 0x0000707F#32, .t2⟩, ⟨.SLTI, 0x00002013#32, 0x0000707F#32, .t2⟩,
   ⟨.SLTIU, 0x00003013#32, 0x0000707F#32, .t2⟩, ⟨.XORI, 0x00004013#32, 0x0000707F#32, .t2⟩,
   ⟨.ORI, 0x00006013#32, 0x0000707F#32, .t2⟩, ⟨.ANDI, 0x00007013#32, 0x0000707F#32, .t2⟩,
   ⟨.SLLI, 0x00001013#32, 0xFE00707F#32, .t2⟩, ⟨.SRLI, 0x00005013#32, 0xFE00707F#32, .t2⟩,
   ⟨.SRAI, 0x40005013#32, 0xFE00707F#32, .t2⟩]

/-- The rows of R66 of tier T3. -/
def nonITypeRows : List OpcodeRow :=
  [⟨.SW, 0x00002023#32, 0x0000707F#32, .t3⟩, ⟨.ADD, 0x00000033#32, 0xFE00707F#32, .t3⟩,
   ⟨.SUB, 0x40000033#32, 0xFE00707F#32, .t3⟩, ⟨.SLT, 0x00002033#32, 0xFE00707F#32, .t3⟩,
   ⟨.OR, 0x00006033#32, 0xFE00707F#32, .t3⟩, ⟨.AND, 0x00007033#32, 0xFE00707F#32, .t3⟩,
   ⟨.BEQ, 0x00000063#32, 0x0000707F#32, .t3⟩]

/-- The complete opcode map (R66). -/
def opcodeMap : List OpcodeRow := loadRows ++ opImmRows ++ nonITypeRows

/-- `inst & mask = match` (R66). -/
def OpcodeRow.matchesWord (row : OpcodeRow) (w : Word) : Bool := w &&& row.mask == row.pattern

/-- An instruction's name. -/
def mnemonicOf : Instr → Mnemonic
  | .lb _ _ _ => .LB
  | .lh _ _ _ => .LH
  | .lw _ _ _ => .LW
  | .lbu _ _ _ => .LBU
  | .lhu _ _ _ => .LHU
  | .addi _ _ _ => .ADDI
  | .slti _ _ _ => .SLTI
  | .sltiu _ _ _ => .SLTIU
  | .xori _ _ _ => .XORI
  | .ori _ _ _ => .ORI
  | .andi _ _ _ => .ANDI
  | .slli _ _ _ => .SLLI
  | .srli _ _ _ => .SRLI
  | .srai _ _ _ => .SRAI
  | .sw _ _ _ => .SW
  | .add _ _ _ => .ADD
  | .sub _ _ _ => .SUB
  | .slt _ _ _ => .SLT
  | .or _ _ _ => .OR
  | .and _ _ _ => .AND
  | .beq _ _ _ => .BEQ

/-- An instruction's evidence tier (R2, R66). -/
def tierOf : Instr → Tier
  | .lw _ _ _ => .t1
  | .lb _ _ _ => .t2
  | .lh _ _ _ => .t2
  | .lbu _ _ _ => .t2
  | .lhu _ _ _ => .t2
  | .addi _ _ _ => .t2
  | .slti _ _ _ => .t2
  | .sltiu _ _ _ => .t2
  | .xori _ _ _ => .t2
  | .ori _ _ _ => .t2
  | .andi _ _ _ => .t2
  | .slli _ _ _ => .t2
  | .srli _ _ _ => .t2
  | .srai _ _ _ => .t2
  | .sw _ _ _ => .t3
  | .add _ _ _ => .t3
  | .sub _ _ _ => .t3
  | .slt _ _ _ => .t3
  | .or _ _ _ => .t3
  | .and _ _ _ => .t3
  | .beq _ _ _ => .t3

/-- Whether `ADMIT` lets a tier run (R2, R4, D2). -/
def admits : Admit → Tier → Bool
  | .t1, .t1 => true
  | .t1, .t2 => false
  | .t1, .t3 => false
  | .t1t2, .t1 => true
  | .t1t2, .t2 => true
  | .t1t2, .t3 => false
  | .all, _ => true

end Sys2Proof
end

