-- ==== Sys2Proof/Machine/State.lean ====
section
/-! DEFINITION. What the machine holds (spec/10_state.md R10 to R23), the exceptions (spec/60_exceptions.md R170), the
reasons a step has no next state, and the state after reset. -/

namespace Sys2Proof.Machine

/-- Data memory: bytes by address, addresses strictly rising, no entry equal to what an unlisted address reads as
(`Memory.wf` in Ops.lean). -/
abbrev Memory := List Host.Cell

/-- The synchronous exceptions, each with the value it records (R170). -/
inductive Exception where
  /-- raised by a taken BEQ, or by a step at a misaligned `pc` (R173); records the misaligned address -/
  | instructionAddressMisaligned (addr : Word)
  /-- raised by a step whose `pc` is outside the image and not the end address (R174); records `pc` -/
  | instructionAccessFault (pc : Word)
  /-- raised by a step whose word is no admitted instruction (R172); records the word -/
  | illegalInstruction (inst : Word)
  /-- raised by LH, LHU, LW (R175); records the address -/
  | loadAddressMisaligned (addr : Word)
  /-- raised by LB, LH, LW, LBU, LHU (R176); records the address -/
  | loadAccessFault (addr : Word)
  /-- raised by SW (R177); records the address -/
  | storeAddressMisaligned (addr : Word)
  /-- raised by SW (R178, R45); records the address -/
  | storeAccessFault (addr : Word)
deriving DecidableEq, Repr

/-- The model status (R22). -/
inductive Status where
  | running
  /-- the run has ended at `END_PC` (spec/70_reset_and_hazards.md R205) -/
  | ended
  /-- an exception was raised (R171) -/
  | faulted (e : Exception)
deriving DecidableEq, Repr

/-- Why `step` answers a fault. Both are raised by `step` alone, in a state that is not running, which has no step (R22).
Both are safe: the model stops where the spec gives the hardware no meaning. -/
inductive Fault where
  /-- the status is `ended` (R205); safe -/
  | runHasEnded
  /-- the status is `faulted e` (R171: "a faulted machine has no further step, ever"); safe -/
  | machineIsFaulted (e : Exception)
deriving DecidableEq, Repr

/-- Why `step` or `exec` answers a refusal. -/
inductive Refusal where
  /-- raised by an arm of `exec` whose instruction has no meaning yet; no arm raises it; safe -/
  | notModelled (mnemonic : String)
  /-- raised by `step` when the configuration violates the constraints of R39 (spec/93_implementation_defined.md U11:
  "refuse configurations violating the constraints"); safe -/
  | configurationRefused
deriving DecidableEq, Repr

/-- The machine's state. -/
structure State where
  /-- `x1` to `x31`, the k-th entry holding `x(k+1)` (R10); `x0` is a constant and no storage (R11) -/
  regs : Vector Word 31
  /-- the program counter (R13) -/
  pc : Word
  /-- the data memory (R20) -/
  mem : Memory
  /-- the program image, word by word from `IMEM_BASE` (R20, R36); never written -/
  imem : List Word
  /-- the OPEN parameters (R4, R39); never written -/
  config : Config
  /-- the model status (R22) -/
  status : Status
deriving DecidableEq, Repr

/-- The launch state (R23, R200, R202): `pc` at `RESET_PC`, the status running; the image, `x1` to `x31` and the data
memory as the launch gives them. -/
def State.launch (config : Config) (image : List Word) (regs : Vector Word 31) (mem : Memory) : State where
  regs := regs
  pc := config.resetPc
  mem := mem
  imem := image
  config := config
  status := .running

/-- The state after reset: the launch with the configuration of the spec's test vectors (DESIGN CHOICE, log 3), no
program loaded (log 4), `x1` to `x31` zero (DESIGN CHOICE, log 1) and no byte of data memory listed (DESIGN CHOICE,
log 2). No statement rests on these values. -/
def State.reset : State := State.launch Config.testVectors [] (Vector.replicate 31 0#32) []

end Sys2Proof.Machine
end

