-- ==== Sys2Proof/Machine/Ops.lean ====
section
/-! DEFINITION. The named operations over registers and memory (spec/10_state.md R11, R14; spec/20_memory.md R30 to R38,
R45) and the one operation that raises an exception (spec/60_exceptions.md R171). There is no return from an exception
(R182: nothing to restore, no further step). -/

namespace Sys2Proof.Machine

/-- What a step and a meaning answer. -/
abbrev Result := Host.Outcome State Fault Refusal

/-! ### General registers -/

/-- `x[r]`: `x0` reads 0 (R11). -/
def State.readReg (s : State) (r : Reg) : Word :=
  if h : r.val = 0 then 0#32 else s.regs[r.val - 1]'(by omega)

/-- `x[r] <- v`: a write to `x0` is discarded (R11). -/
def State.writeReg (s : State) (r : Reg) (v : Word) : State :=
  if h : r.val = 0 then s else { s with regs := s.regs.set (r.val - 1) v (by omega) }

/-! ### Program counter and status -/

/-- `pc <- t` (R13, R157). -/
def State.jump (s : State) (target : Word) : State := { s with pc := target }

/-- `pc <- pc + 4` modulo 2^32 (R14). -/
def State.advance (s : State) : State := s.jump (s.pc + 4#32)

/-- `raise E(info)` (R6, R171): nothing is written but the model status. -/
def State.raise (s : State) (e : Exception) : State := { s with status := .faulted e }

/-- The run ends (R205): nothing is written but the model status. -/
def State.endRun (s : State) : State := { s with status := .ended }

/-- The last two parts of an instruction with a destination: `x[rd] <- v`, `pc <- pc + 4` (R15). -/
def State.retire (s : State) (rd : Reg) (v : Word) : State := (s.writeReg rd v).advance

/-! ### Data memory, byte by byte -/

/-- What a byte no entry lists reads as. DESIGN CHOICE (log 2): the spec leaves launch contents open. -/
def unlistedByte : Byte := 0#8

/-- The canonical form: addresses strictly rising, no entry equal to `unlistedByte`. -/
abbrev Memory.wf (m : Memory) : Prop :=
  m.Pairwise (fun c d => c.1 < d.1) ∧ ∀ c ∈ m, c.2 ≠ unlistedByte

/-- `M[a]` (R35). -/
def Memory.byteAt : Memory → Nat → Byte
  | [], _ => unlistedByte
  | (k, v) :: rest, a => if k = a then v else Memory.byteAt rest a

/-- `M[a] <- b` (R35), keeping the canonical form. -/
def Memory.setByte : Memory → Nat → Byte → Memory
  | [], a, b => if b = unlistedByte then [] else [(a, b)]
  | (k, v) :: rest, a, b =>
    if a < k then (if b = unlistedByte then (k, v) :: rest else (a, b) :: (k, v) :: rest)
    else if a = k then (if b = unlistedByte then rest else (a, b) :: rest)
    else (k, v) :: Memory.setByte rest a b

/-- The 16-bit value at address `a` (R30, R35). -/
def Memory.halfAt (m : Memory) (o : ByteOrder) (a : Nat) : BitVec 16 :=
  halfOfBytes o (m.byteAt a) (m.byteAt (a + 1))

/-- The 32-bit value at address `a` (R30, R35). -/
def Memory.wordAt (m : Memory) (o : ByteOrder) (a : Nat) : Word :=
  wordOfBytes o (m.byteAt a) (m.byteAt (a + 1)) (m.byteAt (a + 2)) (m.byteAt (a + 3))

/-- The four byte writes of a word store (R30, R35). -/
def Memory.setWord (m : Memory) (o : ByteOrder) (a : Nat) (v : Word) : Memory :=
  (((m.setByte a (byteOfWord o v 0)).setByte (a + 1) (byteOfWord o v 1)).setByte (a + 2) (byteOfWord o v 2)).setByte
    (a + 3) (byteOfWord o v 3)

/-! ### The checks of a data access -/

/-- An access of `n` bytes is aligned (R32, R35: `addr mod n = 0`). -/
def aligned (addr : Word) (n : Nat) : Bool := addr.toNat % n == 0

/-- All of `addr .. addr+n-1` lie in the data memory without wrapping past 2^32 (R35). -/
def State.inDataMemory (s : State) (addr : Word) (n : Nat) : Bool :=
  decide (s.config.dmemBase.toNat ≤ addr.toNat ∧ addr.toNat + n ≤ s.config.dmemBase.toNat + s.config.dmemSize ∧
    addr.toNat + n ≤ 2 ^ 32)

/-- The address range of an access meets the program image's address range (R45). -/
def State.overlapsImage (s : State) (addr : Word) (n : Nat) : Bool :=
  decide (0 < s.imem.length ∧ addr.toNat < s.config.imemBase.toNat + 4 * s.imem.length ∧
    s.config.imemBase.toNat < addr.toNat + n)

/-- What a load of `n` bytes raises, if anything: misalignment first, then the range (R35, R179). -/
def State.loadException (s : State) (addr : Word) (n : Nat) : Option Exception :=
  if !aligned addr n then some (.loadAddressMisaligned addr)
  else if !s.inDataMemory addr n then some (.loadAccessFault addr)
  else none

/-- What a store of `n` bytes raises, if anything (R35, R179); with `FAULT_ON_STORE_TO_TEXT` on, a store that overlaps
the image raises StoreAccessFault (R45, D10; log 11). -/
def State.storeException (s : State) (addr : Word) (n : Nat) : Option Exception :=
  if !aligned addr n then some (.storeAddressMisaligned addr)
  else if !s.inDataMemory addr n then some (.storeAccessFault addr)
  else if s.config.faultOnStoreToText && s.overlapsImage addr n then some (.storeAccessFault addr)
  else none

/-- A state in which the word store has been made (R35, R151). -/
def State.storeWord (s : State) (addr v : Word) : State :=
  { s with mem := s.mem.setWord s.config.byteOrder addr.toNat v }

/-! ### Labels of the exceptions (R170): no register holds them -/

/-- The RISC-V cause code of the same-named exception, a label only (R170). -/
def Exception.code : Exception → Nat
  | .instructionAddressMisaligned _ => 0
  | .instructionAccessFault _ => 1
  | .illegalInstruction _ => 2
  | .loadAddressMisaligned _ => 4
  | .loadAccessFault _ => 5
  | .storeAddressMisaligned _ => 6
  | .storeAccessFault _ => 7

/-- The value an exception records (R170). -/
def Exception.info : Exception → Word
  | .instructionAddressMisaligned a => a
  | .instructionAccessFault a => a
  | .illegalInstruction w => w
  | .loadAddressMisaligned a => a
  | .loadAccessFault a => a
  | .storeAddressMisaligned a => a
  | .storeAccessFault a => a

end Sys2Proof.Machine
end

