-- ==== Sys2Proof/Machine/Operands.lean ====
section
/-! DEFINITION. The operand forms (spec/30_encoding.md R65; spec/20_memory.md R40; spec/44_non_i_type.md R157). -/

namespace Sys2Proof.Machine

/-- A 12-bit immediate, sign-extended for every instruction that has one, the unsigned and the logical ones too (R65,
R100). -/
def immOperand (imm : BitVec 12) : Word := imm.signExtend 32

/-- A shift amount, 0 to 31, not extended (R65, R110). -/
def shiftAmount (shamt : BitVec 5) : Nat := shamt.toNat

/-- The address of a load or of SW: base register plus signed displacement modulo 2^32 (R40). -/
def State.effectiveAddress (s : State) (rs1 : Reg) (imm : BitVec 12) : Word := s.readReg rs1 + immOperand imm

/-- The target of a BEQ standing at `pc` (R157). -/
def State.branchTarget (s : State) (offset : BitVec 13) : Word := s.pc + offset.signExtend 32

/-- A comparison's result in a register: 1 or 0 (R102). -/
def boolWord (b : Bool) : Word := if b then 1#32 else 0#32

/-- The register an instruction writes; SW and BEQ write none (spec/10_state.md R12). -/
def destinationOf : Instr → Option Reg
  | .lb rd _ _ => some rd
  | .lh rd _ _ => some rd
  | .lw rd _ _ => some rd
  | .lbu rd _ _ => some rd
  | .lhu rd _ _ => some rd
  | .addi rd _ _ => some rd
  | .slti rd _ _ => some rd
  | .sltiu rd _ _ => some rd
  | .xori rd _ _ => some rd
  | .ori rd _ _ => some rd
  | .andi rd _ _ => some rd
  | .slli rd _ _ => some rd
  | .srli rd _ _ => some rd
  | .srai rd _ _ => some rd
  | .sw _ _ _ => none
  | .add rd _ _ => some rd
  | .sub rd _ _ => some rd
  | .slt rd _ _ => some rd
  | .or rd _ _ => some rd
  | .and rd _ _ => some rd
  | .beq _ _ _ => none

/-- The registers an instruction reads (R12). -/
def sourcesOf : Instr → List Reg
  | .lb _ rs1 _ => [rs1]
  | .lh _ rs1 _ => [rs1]
  | .lw _ rs1 _ => [rs1]
  | .lbu _ rs1 _ => [rs1]
  | .lhu _ rs1 _ => [rs1]
  | .addi _ rs1 _ => [rs1]
  | .slti _ rs1 _ => [rs1]
  | .sltiu _ rs1 _ => [rs1]
  | .xori _ rs1 _ => [rs1]
  | .ori _ rs1 _ => [rs1]
  | .andi _ rs1 _ => [rs1]
  | .slli _ rs1 _ => [rs1]
  | .srli _ rs1 _ => [rs1]
  | .srai _ rs1 _ => [rs1]
  | .sw rs2 rs1 _ => [rs1, rs2]
  | .add _ rs1 rs2 => [rs1, rs2]
  | .sub _ rs1 rs2 => [rs1, rs2]
  | .slt _ rs1 rs2 => [rs1, rs2]
  | .or _ rs1 rs2 => [rs1, rs2]
  | .and _ rs1 rs2 => [rs1, rs2]
  | .beq rs1 rs2 _ => [rs1, rs2]

end Sys2Proof.Machine
end

