-- ==== Sys2Proof/Machine/Branch.lean ====
section
/-! DEFINITION. BEQ (spec/44_non_i_type.md R157). -/

namespace Sys2Proof.Machine

/-- BEQ: taken when the two registers are equal; a taken branch to a target that is not a multiple of 4 raises
InstructionAddressMisaligned(target) on the BEQ itself (R157, R173). -/
def execBeq (rs1 rs2 : Reg) (offset : BitVec 13) (s : State) : Result :=
  if s.readReg rs1 = s.readReg rs2 then
    if aligned (s.branchTarget offset) 4 then .next (s.jump (s.branchTarget offset))
    else .next (s.raise (.instructionAddressMisaligned (s.branchTarget offset)))
  else .next s.advance

end Sys2Proof.Machine
end

