-- ==== Sys2Proof/Machine/Loads.lean ====
section
/-! DEFINITION. LB, LH, LW, LBU, LHU (spec/40_loads.md R90 to R95). -/

namespace Sys2Proof.Machine

/-- What the five loads share (R90): the address, the checks for `n` bytes, then `x[rd] <- value`, `pc <- pc + 4`, where
`value` is the extended value at that address. A load whose `rd` is `x0` is checked like any other (R90 (b)). -/
def load (n : Nat) (value : Memory → ByteOrder → Nat → Word) (rd rs1 : Reg) (imm : BitVec 12) (s : State) : Result :=
  match s.loadException (s.effectiveAddress rs1 imm) n with
  | some e => .next (s.raise e)
  | none => .next (s.retire rd (value s.mem s.config.byteOrder (s.effectiveAddress rs1 imm).toNat))

/-- LB: sign-extended byte (R91). -/
def execLb (rd rs1 : Reg) (imm : BitVec 12) (s : State) : Result :=
  load 1 (fun m _ a => (m.byteAt a).signExtend 32) rd rs1 imm s

/-- LH: sign-extended halfword (R92). -/
def execLh (rd rs1 : Reg) (imm : BitVec 12) (s : State) : Result :=
  load 2 (fun m o a => (m.halfAt o a).signExtend 32) rd rs1 imm s

/-- LW: word (R93). -/
def execLw (rd rs1 : Reg) (imm : BitVec 12) (s : State) : Result :=
  load 4 (fun m o a => m.wordAt o a) rd rs1 imm s

/-- LBU: zero-extended byte (R94). -/
def execLbu (rd rs1 : Reg) (imm : BitVec 12) (s : State) : Result :=
  load 1 (fun m _ a => (m.byteAt a).zeroExtend 32) rd rs1 imm s

/-- LHU: zero-extended halfword (R95). -/
def execLhu (rd rs1 : Reg) (imm : BitVec 12) (s : State) : Result :=
  load 2 (fun m o a => (m.halfAt o a).zeroExtend 32) rd rs1 imm s

end Sys2Proof.Machine
end

