-- ==== Sys2Proof/Machine/OpImm.lean ====
section
/-! DEFINITION. ADDI, SLTI, SLTIU, XORI, ORI, ANDI (spec/41_op_imm.md R100 to R106). -/

namespace Sys2Proof.Machine

/-- What the six share (R100): `x[rd] <- f x[rs1] sext(imm)`, `pc <- pc + 4`. -/
def opImm (f : Word → Word → Word) (rd rs1 : Reg) (imm : BitVec 12) (s : State) : Result :=
  .next (s.retire rd (f (s.readReg rs1) (immOperand imm)))

/-- ADDI: the sum, wrapping (R101). -/
def execAddi (rd rs1 : Reg) (imm : BitVec 12) (s : State) : Result := opImm (fun a b => a + b) rd rs1 imm s

/-- SLTI: signed comparison (R102). -/
def execSlti (rd rs1 : Reg) (imm : BitVec 12) (s : State) : Result := opImm (fun a b => boolWord (a.slt b)) rd rs1 imm s

/-- SLTIU: unsigned comparison with the sign-extended immediate (R103). -/
def execSltiu (rd rs1 : Reg) (imm : BitVec 12) (s : State) : Result := opImm (fun a b => boolWord (a.ult b)) rd rs1 imm s

/-- XORI (R104). -/
def execXori (rd rs1 : Reg) (imm : BitVec 12) (s : State) : Result := opImm (fun a b => a ^^^ b) rd rs1 imm s

/-- ORI (R105). -/
def execOri (rd rs1 : Reg) (imm : BitVec 12) (s : State) : Result := opImm (fun a b => a ||| b) rd rs1 imm s

/-- ANDI (R106). -/
def execAndi (rd rs1 : Reg) (imm : BitVec 12) (s : State) : Result := opImm (fun a b => a &&& b) rd rs1 imm s

end Sys2Proof.Machine
end

