-- ==== Sys2Proof/Machine/RegReg.lean ====
section
/-! DEFINITION. ADD, SUB, SLT, OR, AND (spec/44_non_i_type.md R150, R152 to R156). -/

namespace Sys2Proof.Machine

/-- What the five share (R150): `x[rd] <- f x[rs1] x[rs2]`, `pc <- pc + 4`. -/
def regReg (f : Word → Word → Word) (rd rs1 rs2 : Reg) (s : State) : Result :=
  .next (s.retire rd (f (s.readReg rs1) (s.readReg rs2)))

/-- ADD: the sum, wrapping (R152). -/
def execAdd (rd rs1 rs2 : Reg) (s : State) : Result := regReg (fun a b => a + b) rd rs1 rs2 s

/-- SUB: the difference, wrapping (R153). -/
def execSub (rd rs1 rs2 : Reg) (s : State) : Result := regReg (fun a b => a - b) rd rs1 rs2 s

/-- SLT: signed comparison (R154). -/
def execSlt (rd rs1 rs2 : Reg) (s : State) : Result := regReg (fun a b => boolWord (a.slt b)) rd rs1 rs2 s

/-- OR (R155). -/
def execOr (rd rs1 rs2 : Reg) (s : State) : Result := regReg (fun a b => a ||| b) rd rs1 rs2 s

/-- AND (R156). -/
def execAnd (rd rs1 rs2 : Reg) (s : State) : Result := regReg (fun a b => a &&& b) rd rs1 rs2 s

end Sys2Proof.Machine
end

