-- ==== Sys2Proof/Machine/ShiftImm.lean ====
section
/-! DEFINITION. SLLI, SRLI, SRAI (spec/42_shift_imm.md R110 to R113). -/

namespace Sys2Proof.Machine

/-- What the three share (R110): `x[rd] <- f x[rs1] shamt`, `pc <- pc + 4`. -/
def shiftImm (f : Word → Nat → Word) (rd rs1 : Reg) (shamt : BitVec 5) (s : State) : Result :=
  .next (s.retire rd (f (s.readReg rs1) (shiftAmount shamt)))

/-- SLLI: zeros enter at bit 0 (R111). -/
def execSlli (rd rs1 : Reg) (shamt : BitVec 5) (s : State) : Result := shiftImm (fun a n => a <<< n) rd rs1 shamt s

/-- SRLI: zeros enter at bit 31 (R112). -/
def execSrli (rd rs1 : Reg) (shamt : BitVec 5) (s : State) : Result := shiftImm (fun a n => a >>> n) rd rs1 shamt s

/-- SRAI: copies of bit 31 enter at bit 31 (R113). -/
def execSrai (rd rs1 : Reg) (shamt : BitVec 5) (s : State) : Result :=
  shiftImm (fun a n => a.sshiftRight n) rd rs1 shamt s

end Sys2Proof.Machine
end

