-- ==== Sys2Proof/Machine/Store.lean ====
section
/-! DEFINITION. SW (spec/44_non_i_type.md R151). -/

namespace Sys2Proof.Machine

/-- SW: `MemWrite(x[rs1] + sext(imm), 4, x[rs2])`, `pc <- pc + 4`; a store that raises writes nothing (R151, R35). -/
def execSw (rs2 rs1 : Reg) (imm : BitVec 12) (s : State) : Result :=
  match s.storeException (s.effectiveAddress rs1 imm) 4 with
  | some e => .next (s.raise e)
  | none => .next (s.storeWord (s.effectiveAddress rs1 imm) (s.readReg rs2)).advance

end Sys2Proof.Machine
end

