-- ==== Sys2Proof/Machine/Fetch.lean ====
section
/-! DEFINITION. The first four parts of the instruction cycle (spec/10_state.md R15): the configuration's constraints
(spec/20_memory.md R39), the program image and its end (R36; spec/70_reset_and_hazards.md R205), fetch, decode, admission
(spec/60_exceptions.md R172). And the placing of a program word from outside. -/

namespace Sys2Proof.Machine

/-- The constraints of R39 on the map: `IMEM_BASE` is a multiple of 4 and neither memory reaches past 2^32. A misaligned
`RESET_PC` is accepted: the first step raises (spec/93_implementation_defined.md U10). -/
def State.configAccepted (s : State) : Bool :=
  decide (s.config.imemBase.toNat % 4 = 0 ∧ s.config.imemBase.toNat + 4 * s.imem.length ≤ 2 ^ 32 ∧
    s.config.dmemBase.toNat + s.config.dmemSize ≤ 2 ^ 32)

/-- The `k` with `pc = IMEM_BASE + 4*k` and `0 <= k < IMEM_WORDS`, if there is one (R36). -/
def State.imageIndex (s : State) : Option Nat :=
  if s.config.imemBase.toNat ≤ s.pc.toNat ∧ (s.pc.toNat - s.config.imemBase.toNat) % 4 = 0 ∧
      (s.pc.toNat - s.config.imemBase.toNat) / 4 < s.imem.length then
    some ((s.pc.toNat - s.config.imemBase.toNat) / 4)
  else none

/-- `InstrFetch(pc)`: the word of the image at `pc`, none outside the image (R36). -/
def State.instrFetch (s : State) : Option Word :=
  match s.imageIndex with
  | some k => s.imem[k]?
  | none => none

/-- `END_PC` = `IMEM_BASE + 4*IMEM_WORDS` modulo 2^32 (R205). -/
def State.endPc (s : State) : Word := s.config.imemBase + BitVec.ofNat 32 (4 * s.imem.length)

/-- An image given as bytes, word by word in the configured byte order (R36); bytes past the last whole word are no part
of it. -/
def imageOfBytes (o : ByteOrder) : List Byte → List Word
  | b0 :: b1 :: b2 :: b3 :: rest => wordOfBytes o b0 b1 b2 b3 :: imageOfBytes o rest
  | _ => []

/-- What the first four parts of a cycle come to: an instruction to execute, or the state the step ends in. -/
inductive Front where
  | execute (i : Instr)
  | stopIn (t : State)
deriving DecidableEq, Repr

/-- Parts 3 and 4 for a fetched word: decode by R66, the check of ADMIT (R2, R4), or raise IllegalInstruction (R172). -/
def State.decodeFront (s : State) (w : Word) : Front :=
  match decodeWord w with
  | .ok i => if admits s.config.admitted (tierOf i) then .execute i else .stopIn (s.raise (.illegalInstruction w))
  | .error _ => .stopIn (s.raise (.illegalInstruction w))

/-- Parts 1 to 4 of the cycle (R15): alignment of `pc`, then the end of the run wherever `pc` is `END_PC` (R205; log 7), then
the image, then fetch and decode. -/
def State.front (s : State) : Front :=
  if aligned s.pc 4 then
    if s.pc = s.endPc then .stopIn s.endRun
    else
      match s.instrFetch with
      | some w => s.decodeFront w
      | none => .stopIn (s.raise (.instructionAccessFault s.pc))
  else .stopIn (s.raise (.instructionAddressMisaligned s.pc))

/-- `s` with the word `w` in the image where the next step fetches (log 18): in its place when `pc` is inside the image
and not `END_PC`; otherwise an image of that one word at `pc` (rounded down to a multiple of 4). The status is running. -/
def State.placeWord (s : State) (w : Word) : State :=
  match if s.pc = s.endPc then none else s.imageIndex with
  | some k => { s with imem := s.imem.set k w, status := .running }
  | none =>
    { s with
      imem := [w]
      config := { s.config with imemBase := s.pc &&& 0xFFFFFFFC#32 }
      pc := s.pc &&& 0xFFFFFFFC#32
      status := .running }

end Sys2Proof.Machine
end

