-- ==== Sys2Proof/Machine/Step.lean ====
section
/-! DEFINITION. One step of the machine (spec/10_state.md R15, R22). -/

namespace Sys2Proof.Machine

/-- One cycle. Only a running machine has a step (R22); a configuration that violates R39 is refused (U11). -/
def step (s : State) : Host.Outcome State Fault Refusal :=
  match s.status with
  | .ended => .fault .runHasEnded
  | .faulted e => .fault (.machineIsFaulted e)
  | .running =>
    if s.configAccepted then
      match s.front with
      | .execute i => exec i s
      | .stopIn t => .next t
    else .refused .configurationRefused

/-- `s` with the instruction word `w` placed where `step` fetches next (log 4, log 18). -/
def State.withFetchWord (s : State) (nbits w : Nat) : State := s.placeWord (BitVec.ofNat 32 (w % 2 ^ nbits))

end Sys2Proof.Machine
end

