-- ==== Sys2Proof/Machine/Assembly.lean ====
section
/-! DEFINITION. Names and spelling, which carry no hardware meaning: register aliases (spec/10_state.md R24), assembler
operand syntax (spec/30_encoding.md R71) and the pseudo-instructions (R72). -/

namespace Sys2Proof.Machine

/-- The ABI names of `x0` to `x31` (R24). -/
def abiNames : List String :=
  ["zero", "ra", "sp", "gp", "tp", "t0", "t1", "t2"] ++ ["s0", "s1", "a0", "a1", "a2", "a3", "a4", "a5"] ++
  ["a6", "a7", "s2", "s3", "s4", "s5", "s6", "s7"] ++ ["s8", "s9", "s10", "s11", "t3", "t4", "t5", "t6"]

/-- A register's own name, `x<n>` (R10). -/
def regName (r : Reg) : String := "x" ++ toString r.val

/-- The register a name stands for: `x0` to `x31`, an ABI name, or `fp` for `x8` (R24). -/
def regOfName (name : String) : Option Reg :=
  if name = "fp" then some 8
  else (List.finRange 32).find? (fun r => name == regName r || abiNames[r.val]? == some name)

/-- A branch offset as R157 writes it: with its sign. -/
def offsetText (offset : BitVec 13) : String :=
  if 0 < offset.toInt then "+" ++ toString offset.toInt else toString offset.toInt

/-- `l<x> rd, imm(rs1)` and `sw rs2, imm(rs1)` (R71). -/
def memoryText (name : String) (r base : Reg) (imm : BitVec 12) : String :=
  name ++ " " ++ regName r ++ ", " ++ toString imm.toInt ++ "(" ++ regName base ++ ")"

/-- `op a, b, c` (R71). -/
def threeText (name a b c : String) : String := name ++ " " ++ a ++ ", " ++ b ++ ", " ++ c

/-- An instruction as the assembler writes it (R71). -/
def assemblyText : Instr → String
  | .lb rd rs1 imm => memoryText "lb" rd rs1 imm
  | .lh rd rs1 imm => memoryText "lh" rd rs1 imm
  | .lw rd rs1 imm => memoryText "lw" rd rs1 imm
  | .lbu rd rs1 imm => memoryText "lbu" rd rs1 imm
  | .lhu rd rs1 imm => memoryText "lhu" rd rs1 imm
  | .addi rd rs1 imm => threeText "addi" (regName rd) (regName rs1) (toString imm.toInt)
  | .slti rd rs1 imm => threeText "slti" (regName rd) (regName rs1) (toString imm.toInt)
  | .sltiu rd rs1 imm => threeText "sltiu" (regName rd) (regName rs1) (toString imm.toInt)
  | .xori rd rs1 imm => threeText "xori" (regName rd) (regName rs1) (toString imm.toInt)
  | .ori rd rs1 imm => threeText "ori" (regName rd) (regName rs1) (toString imm.toInt)
  | .andi rd rs1 imm => threeText "andi" (regName rd) (regName rs1) (toString imm.toInt)
  | .slli rd rs1 shamt => threeText "slli" (regName rd) (regName rs1) (toString shamt.toNat)
  | .srli rd rs1 shamt => threeText "srli" (regName rd) (regName rs1) (toString shamt.toNat)
  | .srai rd rs1 shamt => threeText "srai" (regName rd) (regName rs1) (toString shamt.toNat)
  | .sw rs2 rs1 imm => memoryText "sw" rs2 rs1 imm
  | .add rd rs1 rs2 => threeText "add" (regName rd) (regName rs1) (regName rs2)
  | .sub rd rs1 rs2 => threeText "sub" (regName rd) (regName rs1) (regName rs2)
  | .slt rd rs1 rs2 => threeText "slt" (regName rd) (regName rs1) (regName rs2)
  | .or rd rs1 rs2 => threeText "or" (regName rd) (regName rs1) (regName rs2)
  | .and rd rs1 rs2 => threeText "and" (regName rd) (regName rs1) (regName rs2)
  | .beq rs1 rs2 offset => threeText "beq" (regName rs1) (regName rs2) (offsetText offset)

/-- The pseudo-instructions that expand to admitted instructions (R72). -/
inductive Pseudo where
  | nop
  | mv (rd rs : Reg)
  | li (rd : Reg) (imm : BitVec 12)
  | not (rd rs : Reg)
  | seqz (rd rs : Reg)
  | neg (rd rs : Reg)
  | sltz (rd rs : Reg)
  | sgtz (rd rs : Reg)
  | beqz (rs : Reg) (offset : BitVec 13)
deriving DecidableEq, Repr

/-- Their expansions (R72). -/
def expandPseudo : Pseudo → Instr
  | .nop => .addi 0 0 0#12
  | .mv rd rs => .addi rd rs 0#12
  | .li rd imm => .addi rd 0 imm
  | .not rd rs => .xori rd rs (-1#12)
  | .seqz rd rs => .sltiu rd rs 1#12
  | .neg rd rs => .sub rd 0 rs
  | .sltz rd rs => .slt rd rs 0
  | .sgtz rd rs => .slt rd 0 rs
  | .beqz rs offset => .beq rs 0 offset

end Sys2Proof.Machine
end

