-- ==== Sys2Proof/Machine/Flags.lean ====
section
/-! DEFINITION. The ALU's operations and its combinational outputs Z, N, V, C (spec/43_control_unit_datapath.md R125,
R128, R129). They are no architectural state and no instruction reads or writes them (spec/10_state.md R17): no meaning
of an instruction calls this file. -/

namespace Sys2Proof.Machine

/-- `ALUControl` 000 (R125). -/
def aluAdd : BitVec 3 := 0b000#3
/-- `ALUControl` 001 (R125). -/
def aluSubtract : BitVec 3 := 0b001#3
/-- `ALUControl` 010 (R125). -/
def aluAnd : BitVec 3 := 0b010#3
/-- `ALUControl` 011 (R125). -/
def aluOr : BitVec 3 := 0b011#3
/-- `ALUControl` 101 (R125). -/
def aluSetLessThan : BitVec 3 := 0b101#3

/-- `result_o` (R125); a code the source does not assign gives a free value (log 14). -/
def aluResult (ctrl : BitVec 3) (a b : Word) : Word :=
  if ctrl = aluAdd then a + b
  else if ctrl = aluSubtract then a - b
  else if ctrl = aluAnd then a &&& b
  else if ctrl = aluOr then a ||| b
  else if ctrl = aluSetLessThan then boolWord (a.slt b)
  else Config.freeAluResult ctrl a b

/-- `Z`: the result is zero (R128). -/
def flagZ (ctrl : BitVec 3) (a b : Word) : Bool := aluResult ctrl a b == 0#32

/-- `N`: bit 31 of the result (R128). -/
def flagN (ctrl : BitVec 3) (a b : Word) : Bool := (aluResult ctrl a b).msb

/-- The adder: `a + b + carryIn` with the carry out as bit 32. -/
def adder (a b : Word) (carryIn : Bool) : BitVec 33 :=
  a.zeroExtend 33 + b.zeroExtend 33 + (if carryIn then 1#33 else 0#33)

/-- `mux_1`: `B_in` on add (R129). R129 shows no other code and the ALU's structure is lost (N4): that it passes `not_b` on
subtract is the model's choice (DEDUCED, log 14), and on every other code which of the two it passes is free. -/
def mux1Output (ctrl : BitVec 3) (b : Word) : Word :=
  if ctrl = aluAdd then b
  else if ctrl = aluSubtract then ~~~b
  else if Config.freeMux1 ctrl then ~~~b else b

/-- `slt_instruction`: 0 in the two cycles the source samples, an add of 0 and 0 and the add of the `lw` (R129, R131). No
rule says what it is in any other cycle, so there it is a free value (log 14). -/
def sltInstruction (ctrl : BitVec 3) (a b : Word) : Word :=
  if ctrl = aluAdd ∧ (a = 0#32 ∧ b = 0#32 ∨ a = 0x00000020#32 ∧ b = 0xFFFFFFFC#32) then 0#32
  else Config.freeSltInstruction ctrl a b

/-- `C`: the carry out of the adder on add, and on subtract, where the adder gets `not_b` and a carry in (R128, R129;
DEDUCED, log 14); free on every other operation (N21). -/
def flagC (ctrl : BitVec 3) (a b : Word) : Bool :=
  if ctrl = aluAdd then (adder a b false).msb
  else if ctrl = aluSubtract then (adder a (~~~b) true).msb
  else Config.freeFlagC ctrl a b

/-- `V`: signed overflow of the adder on add or subtract: its operands have one sign and its result the other (R128);
free on every other operation (N21). -/
def flagV (ctrl : BitVec 3) (a b : Word) : Bool :=
  if ctrl = aluAdd then a.msb == b.msb && (a + b).msb != a.msb
  else if ctrl = aluSubtract then a.msb != b.msb && (a - b).msb != a.msb
  else Config.freeFlagV ctrl a b

end Sys2Proof.Machine
end

