-- ==== Sys2Proof/Machine/Control.lean ====
section
/-! DEFINITION. The control unit's truth tables (spec/43_control_unit_datapath.md R121 to R124, R127, R133). Description of
the microarchitecture: no meaning of an instruction depends on it. -/

namespace Sys2Proof.Machine

/-- One row of the main decoder's truth table (R121); `none` is the table's don't-care x (R133). -/
structure ControlRow where
  regWrite : Bool
  immSrc : Option (BitVec 2)
  aluSrc : Bool
  memWrite : Bool
  resultSrc : Option Bool
  branch : Bool
  aluOp : BitVec 2
deriving DecidableEq, Repr

/-- The control signals as the hardware has them in one cycle (R122). -/
structure Controls where
  regWrite : Bool
  immSrc : BitVec 2
  aluSrc : Bool
  memWrite : Bool
  resultSrc : Bool
  branch : Bool
  aluOp : BitVec 2
deriving DecidableEq, Repr

/-- The signals agree with the row wherever the row does not say x (R133). -/
def ControlRow.allows (row : ControlRow) (c : Controls) : Bool :=
  c.regWrite == row.regWrite && (row.immSrc == none || row.immSrc == some c.immSrc) && c.aluSrc == row.aluSrc &&
    c.memWrite == row.memWrite && (row.resultSrc == none || row.resultSrc == some c.resultSrc) && c.branch == row.branch &&
    c.aluOp == row.aluOp

/-- The main decoder (R121): four rows, nothing for any other opcode (N5). -/
def mainDecoder (op : BitVec 7) : Option ControlRow :=
  if op = 0b0000011#7 then some ⟨true, some 0b00#2, true, false, some true, false, 0b00#2⟩
  else if op = 0b0100011#7 then some ⟨false, some 0b01#2, true, true, none, false, 0b00#2⟩
  else if op = 0b0110011#7 then some ⟨true, none, false, false, some false, false, 0b10#2⟩
  else if op = 0b1100011#7 then some ⟨false, some 0b10#2, false, false, none, true, 0b01#2⟩
  else none

/-- The row for op 0010011 of the textbook design (R127). PRESUMED (log 15): the source does not contain it. -/
def textbookOpImmRow : ControlRow := ⟨true, some 0b00#2, true, false, some false, false, 0b10#2⟩

/-- The ALU decoder (R124), from ALUOp, funct3, op bit 5 and funct7 bit 5; nothing for an input without a row (N6). -/
def aluDecoder (aluOp : BitVec 2) (funct3 : BitVec 3) (op5 funct7b5 : Bool) : Option (BitVec 3) :=
  if aluOp = 0b00#2 then some aluAdd
  else if aluOp = 0b01#2 then some aluSubtract
  else if aluOp = 0b10#2 then
    if funct3 = 0b000#3 then (if op5 && funct7b5 then some aluSubtract else some aluAdd)
    else if funct3 = 0b010#3 then some aluSetLessThan
    else if funct3 = 0b110#3 then some aluOr
    else if funct3 = 0b111#3 then some aluAnd
    else none
  else none

/-- The immediate extender (R123); the unused code 11 gives a free value (log 14). -/
def extendImmediate (immSrc : BitVec 2) (w : Word) : Word :=
  if immSrc = 0b00#2 then (immIField w).signExtend 32
  else if immSrc = 0b01#2 then (immSField w).signExtend 32
  else if immSrc = 0b10#2 then (immBField w).signExtend 32
  else Config.freeImmediate w

end Sys2Proof.Machine
end

