-- ==== Sys2Proof/Machine/Datapath.lean ====
section
/-! DEFINITION. The datapath's signals in one cycle and what the cycle writes (spec/43_control_unit_datapath.md R120, R126,
R129 to R131). The wiring is the textbook design's, as R120 gives it (PRESUMED, log 15). Description of the
microarchitecture: `step` does not use it; the statements relate it to the meanings of the instructions. -/

namespace Sys2Proof.Machine

/-- The signals of R131 but `clk` and `rst` (log 12), under the source's names. -/
structure Signals where
  instrIn : Word
  immExtOut : Word
  aIn : Word
  bIn : Word
  aluCtrlIn : BitVec 3
  resultO : Word
  z : Bool
  n : Bool
  v : Bool
  c : Bool
  aAndB : Word
  aOrB : Word
  notB : Word
  mux1 : Word
  mux2 : Word
  sltInstruction : Word
  a1 : BitVec 5
  a2 : BitVec 5
  a3 : BitVec 5
  we3 : Bool
  wd3 : Word
  rd1 : Word
deriving DecidableEq, Repr

/-- ALU operand B: the second register when ALUSrc is 0, the extended immediate when it is 1 (R120, R122). -/
def operandB (c : Controls) (w : Word) (s : State) : Word :=
  if c.aluSrc then extendImmediate c.immSrc w else s.readReg (rs2Field w)

/-- The value at the register write port: the memory read data when ResultSrc is 1, the ALU result when it is 0 (R120,
R122). What memory answers at an ALU result that is misaligned or near 2^32 is the model's choice (log 19). -/
def writeBack (c : Controls) (s : State) (result : Word) : Word :=
  if c.resultSrc then s.mem.wordAt s.config.byteOrder result.toNat else result

/-- The signals of a cycle that executes the word `w` under the controls `c` and the ALUControl code `ctrl`. `mux1`
selects between `bIn` and `notB` (`mux1Output` says on which codes) and `mux2` is the result: the readings R129 infers from
the one cycle it shows, an add; that `mux2` is the result on every other code too is the model's choice (DEDUCED, log 14). -/
def signals (c : Controls) (ctrl : BitVec 3) (w : Word) (s : State) : Signals :=
  let a := s.readReg (rs1Field w)
  let b := operandB c w s
  let result := aluResult ctrl a b
  { instrIn := w
    immExtOut := extendImmediate c.immSrc w
    aIn := a
    bIn := b
    aluCtrlIn := ctrl
    resultO := result
    z := flagZ ctrl a b
    n := flagN ctrl a b
    v := flagV ctrl a b
    c := flagC ctrl a b
    aAndB := a &&& b
    aOrB := a ||| b
    notB := ~~~b
    mux1 := mux1Output ctrl b
    mux2 := result
    sltInstruction := Sys2Proof.Machine.sltInstruction ctrl a b
    a1 := bitsOfReg (rs1Field w)
    a2 := bitsOfReg (rs2Field w)
    a3 := bitsOfReg (rdField w)
    we3 := c.regWrite
    wd3 := writeBack c s result
    rd1 := a }

/-- What the cycle writes (R120, R122, R126): the register file through `a3`, `wd3` and `we3`, the data memory at the ALU
result, and the next pc. It has no check of alignment or range: those are the model's exceptions, not the datapath's. That
an access then keeps the low address bits and takes the bytes result .. result + 3 as natural numbers, past 2^32 with no wrap,
is the model's choice (DESIGN CHOICE, log 19). -/
def datapathCycle (c : Controls) (ctrl : BitVec 3) (w : Word) (s : State) : State :=
  let g := signals c ctrl w s
  let written := if g.we3 then s.writeReg (regOfBits g.a3) g.wd3 else s
  let stored := if c.memWrite then written.storeWord g.resultO (s.readReg (rs2Field w)) else written
  stored.jump (if c.branch && g.z then s.pc + g.immExtOut else s.pc + 4#32)

end Sys2Proof.Machine
end

