-- ==== Sys2Proof/Safety.lean ====
section
/-! DEFINITION. What a safe state is and the invariant every step keeps. -/

namespace Sys2Proof.Machine

/-- No exception has been raised: claims about a run take this as a premise or prove it (spec/60_exceptions.md, head). -/
def State.faultFree (s : State) : Bool :=
  match s.status with
  | .running => true
  | .ended => true
  | .faulted _ => false

/-- What an exception's record says of the state that holds it (spec/60_exceptions.md R170, R172 to R178). -/
def Exception.recordHolds (s : State) : Exception → Prop
  | .instructionAddressMisaligned a => a.toNat % 4 ≠ 0
  | .instructionAccessFault a => a = s.pc ∧ s.instrFetch = none ∧ s.pc ≠ s.endPc
  | .illegalInstruction w => s.instrFetch = some w
  | .loadAddressMisaligned a => a.toNat % 4 ≠ 0
  | .loadAccessFault a => s.inDataMemory a 4 = false
  | .storeAddressMisaligned a => a.toNat % 4 ≠ 0
  | .storeAccessFault a => s.inDataMemory a 4 = false ∨ s.config.faultOnStoreToText = true ∧ s.overlapsImage a 4 = true

/-- The invariant: the map is one the spec accepts (R39), data memory is canonical and lists only bytes that exist (R20),
`pc` is a multiple of 4 (R16), an ended machine stands at `END_PC` (R205), an exception's record is true (R170). -/
structure State.Inv (s : State) : Prop where
  accepted : s.configAccepted = true
  memCanonical : s.mem.wf
  memExists : ∀ c ∈ s.mem, s.config.dmemBase.toNat ≤ c.1 ∧ c.1 < s.config.dmemBase.toNat + s.config.dmemSize
  pcAligned : s.pc.toNat % 4 = 0
  endedAtEnd : s.status = .ended → s.pc = s.endPc
  recordTrue : ∀ e, s.status = .faulted e → e.recordHolds s

end Sys2Proof.Machine
end

