-- ==== Sys2Proof/Certificates/Slice0/Obligations.lean ====
section
/-! DEFINITION. The statements for the provers. The helpers in `Sys2Proof.Claim` say, in the spec's own terms, what a next
state holds and what it leaves. -/

namespace Sys2Proof.Claim

open Sys2Proof.Machine

/-! ### The spec's vocabulary, written out (spec/00_scope.md R5, R6) -/

/-- `sext_32` of a value read as two's complement. -/
def sext32 (n : Nat) (v : BitVec n) : Word := BitVec.ofInt 32 v.toInt

/-- A register's number as a 5-bit field of an instruction word (R10, R60). -/
def regBits (r : Reg) : BitVec 5 := BitVec.ofNat 5 r.val

/-- The address of a load or store: `x[rs1] + sext_32(imm)` modulo 2^32 (R40). -/
def address (s : State) (rs1 : Reg) (imm : BitVec 12) : Word :=
  BitVec.ofInt 32 ((s.readReg rs1).toInt + imm.toInt)

/-- The number a sequence of bytes stands for, the first at the lowest address (R30): the first byte counts least when the
order is little, most when it is big. -/
def valueOfBytes (o : ByteOrder) (bytes : List Byte) : Nat :=
  match o with
  | .little => bytes.foldr (fun b rest => b.toNat + 256 * rest) 0
  | .big => bytes.reverse.foldr (fun b rest => b.toNat + 256 * rest) 0

/-- The bytes of data memory at `a .. a+n-1`. -/
def bytesFrom (s : State) (a n : Nat) : List Byte := (List.range n).map (fun k => s.mem.byteAt (a + k))

/-- What `MemRead(a, n)` returns in the spec's byte order (R30, R35). -/
def memValue (s : State) (a : Word) (n : Nat) : Nat := valueOfBytes .little (bytesFrom s a.toNat n)

/-- `inDMEM(a, n)` (R35). -/
def inDmem (s : State) (a : Word) (n : Nat) : Prop :=
  s.config.dmemBase.toNat ≤ a.toNat ∧ a.toNat + n ≤ s.config.dmemBase.toNat + s.config.dmemSize ∧ a.toNat + n ≤ 2 ^ 32

/-- `pc` is the address of word `k` of the program image (R36). -/
def atWord (s : State) (k : Nat) (w : Word) : Prop :=
  s.pc.toNat = s.config.imemBase.toNat + 4 * k ∧ s.imem[k]? = some w

/-- `END_PC` (R205), as a number. -/
def endAddress (s : State) : Nat := (s.config.imemBase.toNat + 4 * s.imem.length) % 2 ^ 32

/-- Every byte of data memory, the program image and the configuration are as before. -/
def MemoriesKept (s t : State) : Prop :=
  (∀ a, t.mem.byteAt a = s.mem.byteAt a) ∧ t.imem = s.imem ∧ t.config = s.config

/-- `i` completes and writes `v` to `rd` (nothing when `rd` is `x0`); every other register, every byte of memory, the
image, the configuration and the status are as before; `pc` is advanced by 4. -/
def CompletesWriting (i : Instr) (s : State) (rd : Reg) (v : Word) : Prop :=
  ∃ t, exec i s = .next t ∧ t.readReg rd = (if rd = 0 then 0#32 else v) ∧
    (∀ r, r ≠ rd → t.readReg r = s.readReg r) ∧ t.pc = s.pc + 4#32 ∧ t.status = s.status ∧ MemoriesKept s t

/-- `i` raises `e`: the status records it; no register, no byte of memory, not `pc` is written (R171). -/
def Raises (i : Instr) (s : State) (e : Exception) : Prop :=
  ∃ t, exec i s = .next t ∧ t.status = .faulted e ∧ (∀ r, t.readReg r = s.readReg r) ∧ t.pc = s.pc ∧ MemoriesKept s t

/-- `i` completes with `pc` at `target` and nothing else changed. -/
def CompletesJumping (i : Instr) (s : State) (target : Word) : Prop :=
  ∃ t, exec i s = .next t ∧ t.pc = target ∧ (∀ r, t.readReg r = s.readReg r) ∧ t.status = s.status ∧ MemoriesKept s t

/-- `i` completes and the four bytes from address `a` stand for `v` in the configured byte order (in canonical memory, which
every step keeps); every other byte, every register, the image, the configuration and the status are as before; `pc` is
advanced by 4. -/
def CompletesStoring (i : Instr) (s : State) (a v : Word) : Prop :=
  ∃ t, exec i s = .next t ∧
    (s.mem.wf → valueOfBytes s.config.byteOrder (bytesFrom t a.toNat 4) = v.toNat) ∧
    (∀ b, b < a.toNat ∨ a.toNat + 4 ≤ b → t.mem.byteAt b = s.mem.byteAt b) ∧
    (∀ r, t.readReg r = s.readReg r) ∧ t.pc = s.pc + 4#32 ∧ t.status = s.status ∧ t.imem = s.imem ∧ t.config = s.config

/-- The exceptions of a load of `n` bytes, in their order, and otherwise the value written, in the spec's byte order when
there is more than one byte (R90, R175, R176, R179). -/
def LoadRule (i : Instr) (s : State) (rd rs1 : Reg) (imm : BitVec 12) (n : Nat) (v : Word) : Prop :=
  ((address s rs1 imm).toNat % n ≠ 0 → Raises i s (.loadAddressMisaligned (address s rs1 imm))) ∧
  ((address s rs1 imm).toNat % n = 0 → ¬ inDmem s (address s rs1 imm) n → Raises i s (.loadAccessFault (address s rs1 imm))) ∧
  ((address s rs1 imm).toNat % n = 0 → inDmem s (address s rs1 imm) n → (n = 1 ∨ s.config.byteOrder = .little) →
    CompletesWriting i s rd v)

/-- The addresses of the access and of the program image meet (R45). -/
def meetsImage (s : State) (a : Word) (n : Nat) : Prop :=
  ∃ b, a.toNat ≤ b ∧ b < a.toNat + n ∧ s.config.imemBase.toNat ≤ b ∧ b < s.config.imemBase.toNat + 4 * s.imem.length

end Sys2Proof.Claim

open Sys2Proof Sys2Proof.Machine Sys2Proof.Claim

/-! ### Reset, decoding, the instruction cycle -/

/-- R23, R200: the launch state has `pc` at RESET_PC, `x0` 0, the launch's own registers and data memory, status running;
the state after reset is such a launch state. -/
def Obligations.ResetIsALaunchState : Prop :=
  (∀ (c : Config) (image : List Word) (regs : Vector Word 31) (mem : Memory),
    (State.launch c image regs mem).pc = c.resetPc ∧ (State.launch c image regs mem).status = .running ∧
    (State.launch c image regs mem).readReg 0 = 0#32 ∧
    (∀ k : Fin 31, (State.launch c image regs mem).readReg k.succ = regs[k]) ∧
    (∀ a, (State.launch c image regs mem).mem.byteAt a = mem.byteAt a) ∧
    (State.launch c image regs mem).imem = image ∧ (State.launch c image regs mem).config = c) ∧
  ∃ c image regs mem, State.reset = State.launch c image regs mem

/-- The state after reset meets the invariant. It rests on the model's own choice of configuration (log 3). -/
def Obligations.ResetMeetsTheInvariant : Prop := State.reset.Inv

/-- R15: a step of a running machine runs the instruction that the word at `pc` decodes to; `exec` itself advances `pc`. A
word of the image stands at END_PC, where the run ends instead (R205, log 7), in an image of 2^32 bytes only. -/
def Obligations.StepRunsTheFetchedInstruction : Prop :=
  ∀ (s : State) (k : Nat) (w : Word) (i : Instr), s.status = .running → s.configAccepted = true → atWord s k w →
    s.pc.toNat ≠ endAddress s → decodeWord w = .ok i → admits s.config.admitted (tierOf i) = true → step s = exec i s

/-- Words of every family, from spec/95_test_vectors.md section 2, decode to the instruction they stand for. -/
def Obligations.SampleWordsDecode : Prop :=
  decodeWord 0xFFC4A303#32 = .ok (.lw 6 9 (-4#12)) ∧ decodeWord 0x00354283#32 = .ok (.lbu 5 10 3#12) ∧
  decodeWord 0xFFF30293#32 = .ok (.addi 5 6 (-1#12)) ∧ decodeWord 0x40435293#32 = .ok (.srai 5 6 4#5) ∧
  decodeWord 0xFE712E23#32 = .ok (.sw 7 2 (-4#12)) ∧ decodeWord 0x407302B3#32 = .ok (.sub 5 6 7) ∧
  decodeWord 0xFE000EE3#32 = .ok (.beq 0 0 (-4#13))

/-- R66: the decoder is the opcode map. What it decodes matches the row of its mnemonic and tier, every word that matches a
row decodes to that row's instruction, and no word matches two rows. -/
def Obligations.DecoderIsTheOpcodeMap : Prop :=
  ∀ w : Word,
    (∀ i, decodeWord w = .ok i →
      ∃ row ∈ opcodeMap, w &&& row.mask = row.pattern ∧ row.mnemonic = mnemonicOf i ∧ row.tier = tierOf i) ∧
    (∀ row ∈ opcodeMap, w &&& row.mask = row.pattern → ∃ i, decodeWord w = .ok i ∧ mnemonicOf i = row.mnemonic) ∧
    (∀ row ∈ opcodeMap, ∀ row' ∈ opcodeMap, w &&& row.mask = row.pattern → w &&& row'.mask = row'.pattern → row = row')

/-- Decoding an encoded well-formed instruction gives it back, as a word and as bytes in either order with the rest of the
bytes left. What the order big is, is the model's reading (log 9). -/
def Obligations.DecodeOfEncodeIsTheInstruction : Prop :=
  ∀ i : Instr, i.wellFormed = true → decodeWord (encode i) = .ok i ∧
    ∀ (o : ByteOrder) (rest : List Byte), decode o (bytesOfWord o (encode i) ++ rest) = .ok (i, rest)

/-- A word that decodes is the encoding of what it decodes to, which is well formed: no bit is dropped. -/
def Obligations.EncodeOfDecodeIsTheWord : Prop :=
  ∀ (w : Word) (i : Instr), decodeWord w = .ok i → encode i = w ∧ i.wellFormed = true

/-- R68's named cases: none of these words decodes. -/
def Obligations.NamedIllegalWordsAreRejected : Prop :=
  ∀ w : Word, ∀ i : Instr,
    (w = 0x00000000#32 ∨ w = 0xFFFFFFFF#32 ∨
     w.extractLsb' 0 7 = 0b0000011#7 ∧ w.extractLsb' 12 3 ∈ [0b011#3, 0b110#3, 0b111#3] ∨
     w.extractLsb' 0 7 = 0b0010011#7 ∧ w.extractLsb' 12 3 = 0b001#3 ∧ w.extractLsb' 25 7 ≠ 0#7 ∨
     w.extractLsb' 0 7 = 0b0010011#7 ∧ w.extractLsb' 12 3 = 0b101#3 ∧ w.extractLsb' 25 7 ∉ [0#7, 0b0100000#7] ∨
     w.extractLsb' 0 7 = 0b0100011#7 ∧ w.extractLsb' 12 3 ≠ 0b010#3 ∨
     w.extractLsb' 0 7 = 0b0110011#7 ∧ w.extractLsb' 12 3 ∈ [0b001#3, 0b011#3, 0b100#3, 0b101#3] ∨
     w.extractLsb' 0 7 = 0b0110011#7 ∧ w.extractLsb' 25 7 ∉ [0#7, 0b0100000#7] ∨
     w.extractLsb' 0 7 = 0b0110011#7 ∧ w.extractLsb' 25 7 = 0b0100000#7 ∧ w.extractLsb' 12 3 ≠ 0b000#3 ∨
     w.extractLsb' 0 7 = 0b1100011#7 ∧ w.extractLsb' 12 3 ≠ 0b000#3 ∨
     w.extractLsb' 0 7 ∈ [0b1100111#7, 0b1101111#7, 0b0110111#7, 0b0010111#7, 0b0001111#7, 0b1110011#7] ∨
     w.extractLsb' 0 2 ≠ 0b11#2) → decodeWord w ≠ .ok i

/-- R172: a word that matches no row of the map, or only a row whose tier ADMIT excludes, raises IllegalInstruction with
the word recorded and writes nothing else. -/
def Obligations.IllegalWordRaises : Prop :=
  ∀ (s : State) (k : Nat) (w : Word), s.status = .running → s.configAccepted = true → atWord s k w →
    s.pc.toNat ≠ endAddress s → (∀ row ∈ opcodeMap, w &&& row.mask = row.pattern → admits s.config.admitted row.tier = false) →
    step s = .next { s with status := .faulted (.illegalInstruction w) }

/-- R33, R173 (b): a step at a `pc` that is no multiple of 4 raises InstructionAddressMisaligned(pc) and executes nothing. -/
def Obligations.MisalignedPcRaises : Prop :=
  ∀ s : State, s.status = .running → s.configAccepted = true → s.pc.toNat % 4 ≠ 0 →
    step s = .next { s with status := .faulted (.instructionAddressMisaligned s.pc) }

/-- R174, R205: wherever `pc` is END_PC = IMEM_BASE + 4*IMEM_WORDS modulo 2^32 the run ends; at any other aligned `pc` outside
the image InstructionAccessFault(pc) is raised; nothing but the status is written. That the run ends at END_PC even where a
word of an image of 2^32 bytes stands there is the model's choice between R205 and R15 step 2 (log 7). -/
def Obligations.OutsideTheImageEndsOrRaises : Prop :=
  ∀ s : State, s.status = .running → s.configAccepted = true →
    (s.pc.toNat = endAddress s → step s = .next { s with status := .ended }) ∧
    (s.pc.toNat % 4 = 0 → (¬ ∃ k w, atWord s k w) → s.pc.toNat ≠ endAddress s →
      step s = .next { s with status := .faulted (.instructionAccessFault s.pc) })

/-- R39, U11: a running machine whose map violates the constraints is refused. -/
def Obligations.UnacceptableMapIsRefused : Prop :=
  ∀ s : State, s.status = .running →
    (s.config.imemBase.toNat % 4 ≠ 0 ∨ 2 ^ 32 < s.config.imemBase.toNat + 4 * s.imem.length ∨
      2 ^ 32 < s.config.dmemBase.toNat + s.config.dmemSize) → step s = .refused .configurationRefused

/-! ### Rules about every step -/

/-- Every step keeps the invariant. -/
def Obligations.StepKeepsTheInvariant : Prop := ∀ s t : State, s.Inv → step s = .next t → t.Inv

/-- R22: only a running machine has a step, and (its map accepted) it always has one. -/
def Obligations.OnlyARunningMachineSteps : Prop :=
  ∀ s : State, (s.configAccepted = true → s.status = .running → ∃ t, step s = .next t) ∧
    (s.status ≠ .running → ∀ t, step s ≠ .next t)

/-- R171: a step that raises writes nothing but the status; a faulted machine has no further step. -/
def Obligations.RaisingWritesNothing : Prop :=
  (∀ (s t : State) (e : Exception), step s = .next t → t.status = .faulted e → t = { s with status := .faulted e }) ∧
  (∀ (s t : State) (e : Exception), s.status = .faulted e → step s ≠ .next t)

/-- R205: a step ends the run exactly when `pc` is END_PC, and ending writes nothing but the status. For an image of 2^32 bytes
this is the model's choice between R205 and R15 step 2 (log 7). -/
def Obligations.RunEndsOnlyAtEndPc : Prop :=
  ∀ s t : State, step s = .next t →
    (t.status = .ended ↔ s.pc.toNat = endAddress s) ∧ (t.status = .ended → t = { s with status := .ended })

/-- R20, R45: no step changes the program image or the configuration. -/
def Obligations.ImageAndConfigurationAreConstant : Prop :=
  ∀ s t : State, step s = .next t → t.imem = s.imem ∧ t.config = s.config

/-- R37: a step changes no byte of data memory unless it executes a SW, and then none but the four bytes at its address. -/
def Obligations.OnlySwWritesDataMemory : Prop :=
  ∀ s t : State, step s = .next t →
    (∀ a, t.mem.byteAt a = s.mem.byteAt a) ∨
    ∃ k w rs2 rs1 imm, atWord s k w ∧ decodeWord w = .ok (.sw rs2 rs1 imm) ∧
      ∀ a, a < (address s rs1 imm).toNat ∨ (address s rs1 imm).toNat + 4 ≤ a → t.mem.byteAt a = s.mem.byteAt a

/-- R14: an executed instruction ends with `pc + 4` modulo 2^32, but for a BEQ whose registers are equal, which ends with
`pc + sext_32(imm_B)`. -/
def Obligations.PcAdvancesByFourOrBranches : Prop :=
  ∀ (s t : State) (k : Nat) (w : Word) (i : Instr), step s = .next t → t.status = .running → atWord s k w →
    decodeWord w = .ok i →
    (∀ rs1 rs2 offset, i = .beq rs1 rs2 offset → s.readReg rs1 = s.readReg rs2 → t.pc = s.pc + sext32 13 offset) ∧
    ((∀ rs1 rs2 offset, i = .beq rs1 rs2 offset → s.readReg rs1 ≠ s.readReg rs2) → t.pc = s.pc + 4#32)

/-- R170: every exception comes from one of the sources its row of the table names and records what that row says. -/
def Obligations.ExceptionsComeFromTheirSources : Prop :=
  ∀ (s t : State) (e : Exception), step s = .next t → t.status = .faulted e →
    match e with
    | .instructionAddressMisaligned a =>
      a.toNat % 4 ≠ 0 ∧ (a = s.pc ∨ ∃ k w rs1 rs2 offset, atWord s k w ∧ decodeWord w = .ok (.beq rs1 rs2 offset) ∧
        s.readReg rs1 = s.readReg rs2 ∧ a = s.pc + sext32 13 offset)
    | .instructionAccessFault a =>
      a = s.pc ∧ (¬ ∃ k w, atWord s k w) ∧ a.toNat ≠ endAddress s
    | .illegalInstruction w =>
      ∃ k, atWord s k w ∧ ∀ row ∈ opcodeMap, w &&& row.mask = row.pattern → admits s.config.admitted row.tier = false
    | .loadAddressMisaligned a =>
      ∃ k w rd rs1 imm, atWord s k w ∧ a = address s rs1 imm ∧
        ((decodeWord w = .ok (.lh rd rs1 imm) ∨ decodeWord w = .ok (.lhu rd rs1 imm)) ∧ a.toNat % 2 ≠ 0 ∨
          decodeWord w = .ok (.lw rd rs1 imm) ∧ a.toNat % 4 ≠ 0)
    | .loadAccessFault a =>
      ∃ k w rd rs1 imm, atWord s k w ∧ a = address s rs1 imm ∧
        ((decodeWord w = .ok (.lb rd rs1 imm) ∨ decodeWord w = .ok (.lbu rd rs1 imm)) ∧ ¬ inDmem s a 1 ∨
          (decodeWord w = .ok (.lh rd rs1 imm) ∨ decodeWord w = .ok (.lhu rd rs1 imm)) ∧ ¬ inDmem s a 2 ∨
          decodeWord w = .ok (.lw rd rs1 imm) ∧ ¬ inDmem s a 4)
    | .storeAddressMisaligned a =>
      ∃ k w rs2 rs1 imm, atWord s k w ∧ a = address s rs1 imm ∧ decodeWord w = .ok (.sw rs2 rs1 imm) ∧ a.toNat % 4 ≠ 0
    | .storeAccessFault a =>
      ∃ k w rs2 rs1 imm, atWord s k w ∧ a = address s rs1 imm ∧ decodeWord w = .ok (.sw rs2 rs1 imm) ∧
        (¬ inDmem s a 4 ∨ s.config.faultOnStoreToText = true ∧ meetsImage s a 4)

/-- R179: the order of the exceptions. Whatever else would apply: a misaligned `pc` is reported first, then a `pc` outside
the image, then an illegal word, then a misaligned data address, then a data address outside the data memory. -/
def Obligations.FirstExceptionInOrderIsRaised : Prop :=
  ∀ (s t : State) (e : Exception), step s = .next t → t.status = .faulted e →
    (s.pc.toNat % 4 ≠ 0 → e = .instructionAddressMisaligned s.pc) ∧
    (s.pc.toNat % 4 = 0 → (¬ ∃ k w, atWord s k w) → e = .instructionAccessFault s.pc) ∧
    (∀ k w, atWord s k w →
      ((∀ row ∈ opcodeMap, w &&& row.mask = row.pattern → admits s.config.admitted row.tier = false) →
        e = .illegalInstruction w) ∧
      (∀ i, decodeWord w = .ok i → admits s.config.admitted (tierOf i) = true →
        (∀ rd rs1 imm, (i = .lb rd rs1 imm ∨ i = .lbu rd rs1 imm) → e = .loadAccessFault (address s rs1 imm)) ∧
        (∀ rd rs1 imm, (i = .lh rd rs1 imm ∨ i = .lhu rd rs1 imm) →
          if (address s rs1 imm).toNat % 2 ≠ 0 then e = .loadAddressMisaligned (address s rs1 imm)
          else e = .loadAccessFault (address s rs1 imm)) ∧
        (∀ rd rs1 imm, i = .lw rd rs1 imm →
          if (address s rs1 imm).toNat % 4 ≠ 0 then e = .loadAddressMisaligned (address s rs1 imm)
          else e = .loadAccessFault (address s rs1 imm)) ∧
        (∀ rs2 rs1 imm, i = .sw rs2 rs1 imm →
          if (address s rs1 imm).toNat % 4 ≠ 0 then e = .storeAddressMisaligned (address s rs1 imm)
          else e = .storeAccessFault (address s rs1 imm)) ∧
        (∀ rs1 rs2 offset, i = .beq rs1 rs2 offset → e = .instructionAddressMisaligned (s.pc + sext32 13 offset))))

/-! ### Registers -/

/-- R11: `x0` reads 0 and a write to it changes nothing; the other registers hold the last value written and a write to
one leaves the rest. -/
def Obligations.RegisterZeroIsConstant : Prop :=
  ∀ (s : State) (v : Word), s.readReg 0 = 0#32 ∧ s.writeReg 0 v = s ∧
    ∀ r : Reg, r ≠ 0 → (s.writeReg r v).readReg r = v ∧ ∀ q, q ≠ r → (s.writeReg r v).readReg q = s.readReg q

/-- R12: an instruction writes no register but its `rd`; SW and BEQ write none. -/
def Obligations.OnlyTheDestinationRegisterChanges : Prop :=
  ∀ (i : Instr) (s t : State), exec i s = .next t →
    ∀ r : Reg, destinationOf i ≠ some r → t.readReg r = s.readReg r

/-- R12: what an instruction does depends on no register but those it names as sources: two running states that agree on
them and on everything but the registers come to the same `pc`, memory, status and (where it completes) destination. -/
def Obligations.OnlyTheSourceRegistersAreRead : Prop :=
  ∀ (i : Instr) (s s' t t' : State), s.status = .running → s'.status = .running → s'.pc = s.pc → s'.mem = s.mem →
    s'.imem = s.imem → s'.config = s.config → (∀ r ∈ sourcesOf i, s'.readReg r = s.readReg r) →
    exec i s = .next t → exec i s' = .next t' →
    t'.pc = t.pc ∧ t'.mem = t.mem ∧ t'.status = t.status ∧
      (t.status = .running → ∀ rd, destinationOf i = some rd → t'.readReg rd = t.readReg rd)

/-- R20: no instruction reads the instruction space as data: with the switch of R45 off, replacing the program image
changes nothing an instruction does. -/
def Obligations.ImageIsNeverReadAsData : Prop :=
  ∀ (i : Instr) (s t : State) (image : List Word), s.config.faultOnStoreToText = false → exec i s = .next t →
    exec i { s with imem := image } = .next { t with imem := image }

/-! ### Loads -/

/-- R91. -/
def Obligations.LbLoadsASignExtendedByte : Prop :=
  ∀ (imm : BitVec 12) (rs1 rd : Reg) (s : State),
    decodeWord (imm ++ regBits rs1 ++ 0b000#3 ++ regBits rd ++ 0b0000011#7) = .ok (.lb rd rs1 imm) ∧
    LoadRule (.lb rd rs1 imm) s rd rs1 imm 1 (sext32 8 (BitVec.ofNat 8 (memValue s (address s rs1 imm) 1)))

/-- R92. -/
def Obligations.LhLoadsASignExtendedHalfword : Prop :=
  ∀ (imm : BitVec 12) (rs1 rd : Reg) (s : State),
    decodeWord (imm ++ regBits rs1 ++ 0b001#3 ++ regBits rd ++ 0b0000011#7) = .ok (.lh rd rs1 imm) ∧
    LoadRule (.lh rd rs1 imm) s rd rs1 imm 2 (sext32 16 (BitVec.ofNat 16 (memValue s (address s rs1 imm) 2)))

/-- R93, with its control signals. -/
def Obligations.LwLoadsAWord : Prop :=
  ∀ (imm : BitVec 12) (rs1 rd : Reg) (s : State),
    decodeWord (imm ++ regBits rs1 ++ 0b010#3 ++ regBits rd ++ 0b0000011#7) = .ok (.lw rd rs1 imm) ∧
    mainDecoder 0b0000011#7 = some ⟨true, some 0b00#2, true, false, some true, false, 0b00#2⟩ ∧
    (∀ op5 f7, aluDecoder 0b00#2 0b010#3 op5 f7 = some 0b000#3) ∧
    LoadRule (.lw rd rs1 imm) s rd rs1 imm 4 (BitVec.ofNat 32 (memValue s (address s rs1 imm) 4))

/-- R94. -/
def Obligations.LbuLoadsAZeroExtendedByte : Prop :=
  ∀ (imm : BitVec 12) (rs1 rd : Reg) (s : State),
    decodeWord (imm ++ regBits rs1 ++ 0b100#3 ++ regBits rd ++ 0b0000011#7) = .ok (.lbu rd rs1 imm) ∧
    LoadRule (.lbu rd rs1 imm) s rd rs1 imm 1 (BitVec.ofNat 32 (memValue s (address s rs1 imm) 1))

/-- R95. -/
def Obligations.LhuLoadsAZeroExtendedHalfword : Prop :=
  ∀ (imm : BitVec 12) (rs1 rd : Reg) (s : State),
    decodeWord (imm ++ regBits rs1 ++ 0b101#3 ++ regBits rd ++ 0b0000011#7) = .ok (.lhu rd rs1 imm) ∧
    LoadRule (.lhu rd rs1 imm) s rd rs1 imm 2 (BitVec.ofNat 32 (memValue s (address s rs1 imm) 2))

/-! ### Register-immediate -/

/-- R101. -/
def Obligations.AddiAddsTheSignExtendedImmediate : Prop :=
  ∀ (imm : BitVec 12) (rs1 rd : Reg) (s : State),
    decodeWord (imm ++ regBits rs1 ++ 0b000#3 ++ regBits rd ++ 0b0010011#7) = .ok (.addi rd rs1 imm) ∧
    CompletesWriting (.addi rd rs1 imm) s rd (BitVec.ofInt 32 ((s.readReg rs1).toInt + imm.toInt))

/-- R102. -/
def Obligations.SltiComparesSigned : Prop :=
  ∀ (imm : BitVec 12) (rs1 rd : Reg) (s : State),
    decodeWord (imm ++ regBits rs1 ++ 0b010#3 ++ regBits rd ++ 0b0010011#7) = .ok (.slti rd rs1 imm) ∧
    CompletesWriting (.slti rd rs1 imm) s rd (if (s.readReg rs1).toInt < imm.toInt then 1#32 else 0#32)

/-- R103. -/
def Obligations.SltiuComparesUnsigned : Prop :=
  ∀ (imm : BitVec 12) (rs1 rd : Reg) (s : State),
    decodeWord (imm ++ regBits rs1 ++ 0b011#3 ++ regBits rd ++ 0b0010011#7) = .ok (.sltiu rd rs1 imm) ∧
    CompletesWriting (.sltiu rd rs1 imm) s rd (if (s.readReg rs1).toNat < (sext32 12 imm).toNat then 1#32 else 0#32)

/-- R104. -/
def Obligations.XoriFlipsByTheSignExtendedImmediate : Prop :=
  ∀ (imm : BitVec 12) (rs1 rd : Reg) (s : State),
    decodeWord (imm ++ regBits rs1 ++ 0b100#3 ++ regBits rd ++ 0b0010011#7) = .ok (.xori rd rs1 imm) ∧
    CompletesWriting (.xori rd rs1 imm) s rd (s.readReg rs1 ^^^ sext32 12 imm)

/-- R105. -/
def Obligations.OriSetsTheSignExtendedImmediate : Prop :=
  ∀ (imm : BitVec 12) (rs1 rd : Reg) (s : State),
    decodeWord (imm ++ regBits rs1 ++ 0b110#3 ++ regBits rd ++ 0b0010011#7) = .ok (.ori rd rs1 imm) ∧
    CompletesWriting (.ori rd rs1 imm) s rd (s.readReg rs1 ||| sext32 12 imm)

/-- R106. -/
def Obligations.AndiMasksByTheSignExtendedImmediate : Prop :=
  ∀ (imm : BitVec 12) (rs1 rd : Reg) (s : State),
    decodeWord (imm ++ regBits rs1 ++ 0b111#3 ++ regBits rd ++ 0b0010011#7) = .ok (.andi rd rs1 imm) ∧
    CompletesWriting (.andi rd rs1 imm) s rd (s.readReg rs1 &&& sext32 12 imm)

/-! ### Shifts by an immediate -/

/-- R111: multiplication by 2^shamt modulo 2^32. -/
def Obligations.SlliMultipliesByAPowerOfTwo : Prop :=
  ∀ (shamt : BitVec 5) (rs1 rd : Reg) (s : State),
    decodeWord (0b0000000#7 ++ shamt ++ regBits rs1 ++ 0b001#3 ++ regBits rd ++ 0b0010011#7) =
      .ok (.slli rd rs1 shamt) ∧
    CompletesWriting (.slli rd rs1 shamt) s rd (BitVec.ofNat 32 ((s.readReg rs1).toNat * 2 ^ shamt.toNat))

/-- R112: unsigned division by 2^shamt rounding down. -/
def Obligations.SrliDividesUnsignedByAPowerOfTwo : Prop :=
  ∀ (shamt : BitVec 5) (rs1 rd : Reg) (s : State),
    decodeWord (0b0000000#7 ++ shamt ++ regBits rs1 ++ 0b101#3 ++ regBits rd ++ 0b0010011#7) =
      .ok (.srli rd rs1 shamt) ∧
    CompletesWriting (.srli rd rs1 shamt) s rd (BitVec.ofNat 32 ((s.readReg rs1).toNat / 2 ^ shamt.toNat))

/-- R113: signed division by 2^shamt rounding toward minus infinity. -/
def Obligations.SraiDividesSignedByAPowerOfTwo : Prop :=
  ∀ (shamt : BitVec 5) (rs1 rd : Reg) (s : State),
    decodeWord (0b0100000#7 ++ shamt ++ regBits rs1 ++ 0b101#3 ++ regBits rd ++ 0b0010011#7) =
      .ok (.srai rd rs1 shamt) ∧
    CompletesWriting (.srai rd rs1 shamt) s rd (BitVec.ofInt 32 (Int.fdiv (s.readReg rs1).toInt (2 ^ shamt.toNat)))

/-! ### The instructions named by the control unit -/

/-- R151: SW, in the spec's byte order and with the switch of R45 off for the case in which it completes (the other cases:
`BigEndianReversesTheBytes`, `StoreToTextFaultsWhereTheSwitchIsOn`). -/
def Obligations.SwStoresAWord : Prop :=
  ∀ (hi : BitVec 7) (lo : BitVec 5) (rs2 rs1 : Reg) (s : State),
    decodeWord (hi ++ regBits rs2 ++ regBits rs1 ++ 0b010#3 ++ lo ++ 0b0100011#7) = .ok (.sw rs2 rs1 (hi ++ lo)) ∧
    mainDecoder 0b0100011#7 = some ⟨false, some 0b01#2, true, true, none, false, 0b00#2⟩ ∧
    (∀ op5 f7, aluDecoder 0b00#2 0b010#3 op5 f7 = some 0b000#3) ∧
    ((address s rs1 (hi ++ lo)).toNat % 4 ≠ 0 →
      Raises (.sw rs2 rs1 (hi ++ lo)) s (.storeAddressMisaligned (address s rs1 (hi ++ lo)))) ∧
    ((address s rs1 (hi ++ lo)).toNat % 4 = 0 → ¬ inDmem s (address s rs1 (hi ++ lo)) 4 →
      Raises (.sw rs2 rs1 (hi ++ lo)) s (.storeAccessFault (address s rs1 (hi ++ lo)))) ∧
    ((address s rs1 (hi ++ lo)).toNat % 4 = 0 → inDmem s (address s rs1 (hi ++ lo)) 4 →
      s.config.byteOrder = .little → s.config.faultOnStoreToText = false →
      CompletesStoring (.sw rs2 rs1 (hi ++ lo)) s (address s rs1 (hi ++ lo)) (s.readReg rs2))

/-- R152, with the control signals it cites. -/
def Obligations.AddAddsModulo : Prop :=
  ∀ (rs2 rs1 rd : Reg) (s : State),
    decodeWord (0b0000000#7 ++ regBits rs2 ++ regBits rs1 ++ 0b000#3 ++ regBits rd ++ 0b0110011#7) =
      .ok (.add rd rs1 rs2) ∧
    mainDecoder 0b0110011#7 = some ⟨true, none, false, false, some false, false, 0b10#2⟩ ∧
    (aluDecoder 0b10#2 0b000#3 false false = some 0b000#3 ∧ aluDecoder 0b10#2 0b000#3 false true = some 0b000#3 ∧
      aluDecoder 0b10#2 0b000#3 true false = some 0b000#3) ∧
    CompletesWriting (.add rd rs1 rs2) s rd (BitVec.ofInt 32 ((s.readReg rs1).toInt + (s.readReg rs2).toInt))

/-- R153. -/
def Obligations.SubSubtractsModulo : Prop :=
  ∀ (rs2 rs1 rd : Reg) (s : State),
    decodeWord (0b0100000#7 ++ regBits rs2 ++ regBits rs1 ++ 0b000#3 ++ regBits rd ++ 0b0110011#7) =
      .ok (.sub rd rs1 rs2) ∧
    aluDecoder 0b10#2 0b000#3 true true = some 0b001#3 ∧
    CompletesWriting (.sub rd rs1 rs2) s rd (BitVec.ofInt 32 ((s.readReg rs1).toInt - (s.readReg rs2).toInt))

/-- R154. -/
def Obligations.SltComparesSigned : Prop :=
  ∀ (rs2 rs1 rd : Reg) (s : State),
    decodeWord (0b0000000#7 ++ regBits rs2 ++ regBits rs1 ++ 0b010#3 ++ regBits rd ++ 0b0110011#7) =
      .ok (.slt rd rs1 rs2) ∧
    (∀ op5 f7, aluDecoder 0b10#2 0b010#3 op5 f7 = some 0b101#3) ∧
    CompletesWriting (.slt rd rs1 rs2) s rd (if (s.readReg rs1).toInt < (s.readReg rs2).toInt then 1#32 else 0#32)

/-- R155. -/
def Obligations.OrJoinsBits : Prop :=
  ∀ (rs2 rs1 rd : Reg) (s : State),
    decodeWord (0b0000000#7 ++ regBits rs2 ++ regBits rs1 ++ 0b110#3 ++ regBits rd ++ 0b0110011#7) =
      .ok (.or rd rs1 rs2) ∧
    (∀ op5 f7, aluDecoder 0b10#2 0b110#3 op5 f7 = some 0b011#3) ∧
    CompletesWriting (.or rd rs1 rs2) s rd (s.readReg rs1 ||| s.readReg rs2)

/-- R156. -/
def Obligations.AndKeepsCommonBits : Prop :=
  ∀ (rs2 rs1 rd : Reg) (s : State),
    decodeWord (0b0000000#7 ++ regBits rs2 ++ regBits rs1 ++ 0b111#3 ++ regBits rd ++ 0b0110011#7) =
      .ok (.and rd rs1 rs2) ∧
    (∀ op5 f7, aluDecoder 0b10#2 0b111#3 op5 f7 = some 0b010#3) ∧
    CompletesWriting (.and rd rs1 rs2) s rd (s.readReg rs1 &&& s.readReg rs2)

/-- R157: BEQ. -/
def Obligations.BeqBranchesOnEquality : Prop :=
  ∀ (b12 : BitVec 1) (b10 : BitVec 6) (b4 : BitVec 4) (b11 : BitVec 1) (rs2 rs1 : Reg) (s : State),
    let offset : BitVec 13 := b12 ++ b11 ++ b10 ++ b4 ++ 0#1
    let target : Word := BitVec.ofInt 32 (s.pc.toInt + offset.toInt)
    decodeWord (b12 ++ b10 ++ regBits rs2 ++ regBits rs1 ++ 0b000#3 ++ b4 ++ b11 ++ 0b1100011#7) =
      .ok (.beq rs1 rs2 offset) ∧
    mainDecoder 0b1100011#7 = some ⟨false, some 0b10#2, false, false, none, true, 0b01#2⟩ ∧
    (∀ op5 f7, aluDecoder 0b01#2 0b000#3 op5 f7 = some 0b001#3) ∧
    (s.readReg rs1 = s.readReg rs2 → target.toNat % 4 = 0 → CompletesJumping (.beq rs1 rs2 offset) s target) ∧
    (s.readReg rs1 = s.readReg rs2 → target.toNat % 4 ≠ 0 →
      Raises (.beq rs1 rs2 offset) s (.instructionAddressMisaligned target)) ∧
    (s.readReg rs1 ≠ s.readReg rs2 → CompletesJumping (.beq rs1 rs2 offset) s (s.pc + 4#32))

/-! ### Memory: the parameters, store and load together -/

/-- D6: BYTE_ORDER = big. What the parameter's other value means is the model's reading (log 9): the byte at the lowest
address is the most significant one. -/
def Obligations.BigEndianReversesTheBytes : Prop :=
  ∀ (rd rs2 rs1 : Reg) (imm : BitVec 12) (s : State), s.config.byteOrder = .big →
    ((address s rs1 imm).toNat % 2 = 0 → inDmem s (address s rs1 imm) 2 →
      CompletesWriting (.lh rd rs1 imm) s rd
        (sext32 16 (BitVec.ofNat 16 (valueOfBytes .big (bytesFrom s (address s rs1 imm).toNat 2)))) ∧
      CompletesWriting (.lhu rd rs1 imm) s rd
        (BitVec.ofNat 32 (valueOfBytes .big (bytesFrom s (address s rs1 imm).toNat 2)))) ∧
    ((address s rs1 imm).toNat % 4 = 0 → inDmem s (address s rs1 imm) 4 →
      CompletesWriting (.lw rd rs1 imm) s rd
        (BitVec.ofNat 32 (valueOfBytes .big (bytesFrom s (address s rs1 imm).toNat 4))) ∧
      (s.config.faultOnStoreToText = false → CompletesStoring (.sw rs2 rs1 imm) s (address s rs1 imm) (s.readReg rs2)))

/-- R45, D10: with FAULT_ON_STORE_TO_TEXT on, an aligned SW inside the data memory raises StoreAccessFault when its four
addresses meet the image's, and otherwise completes as R151 says. That this check comes with the range check is the model's
reading (log 11), and so is the order of the stored bytes when BYTE_ORDER is big (log 9). -/
def Obligations.StoreToTextFaultsWhereTheSwitchIsOn : Prop :=
  ∀ (rs2 rs1 : Reg) (imm : BitVec 12) (s : State), s.config.faultOnStoreToText = true →
    (address s rs1 imm).toNat % 4 = 0 → inDmem s (address s rs1 imm) 4 →
    (meetsImage s (address s rs1 imm) 4 → Raises (.sw rs2 rs1 imm) s (.storeAccessFault (address s rs1 imm))) ∧
    (¬ meetsImage s (address s rs1 imm) 4 → CompletesStoring (.sw rs2 rs1 imm) s (address s rs1 imm) (s.readReg rs2))

/-- R42, R151: a LW of the address a SW completed on returns the word stored, in either byte order. What the order big is, is
the model's reading (log 9). -/
def Obligations.LwAfterSwReturnsTheStoredWord : Prop :=
  ∀ (s t : State) (rs2 rs1 rd rb : Reg) (imm imm' : BitVec 12), s.mem.wf → s.status = .running →
    exec (.sw rs2 rs1 imm) s = .next t → t.status = .running → address t rb imm' = address s rs1 imm →
    CompletesWriting (.lw rd rb imm') t rd (s.readReg rs2)

/-- R30, R47: with the spec's byte order, after a SW completed, the byte and halfword loads inside the stored word see its
bytes: byte k is bits 8k+7..8k of the word, halfword 2h is bits 16h+15..16h. -/
def Obligations.NarrowLoadsSeeTheStoredBytes : Prop :=
  ∀ (s t : State) (rs2 rs1 rd rb : Reg) (imm imm' : BitVec 12), s.mem.wf → s.status = .running →
    s.config.byteOrder = .little → exec (.sw rs2 rs1 imm) s = .next t → t.status = .running →
    (∀ k < 4, (address t rb imm').toNat = (address s rs1 imm).toNat + k →
      CompletesWriting (.lbu rd rb imm') t rd (BitVec.ofNat 32 ((s.readReg rs2).toNat / 256 ^ k % 256)) ∧
      CompletesWriting (.lb rd rb imm') t rd (sext32 8 (BitVec.ofNat 8 ((s.readReg rs2).toNat / 256 ^ k)))) ∧
    (∀ h < 2, (address t rb imm').toNat = (address s rs1 imm).toNat + 2 * h →
      CompletesWriting (.lhu rd rb imm') t rd (BitVec.ofNat 32 ((s.readReg rs2).toNat / 65536 ^ h % 65536)) ∧
      CompletesWriting (.lh rd rb imm') t rd (sext32 16 (BitVec.ofNat 16 ((s.readReg rs2).toNat / 65536 ^ h))))

/-! ### The control unit and the datapath -/

/-- R121: the main decoder's truth table, row by row, and no other row. -/
def Obligations.MainDecoderHasTheFourRows : Prop :=
  mainDecoder 0b0000011#7 = some ⟨true, some 0b00#2, true, false, some true, false, 0b00#2⟩ ∧
  mainDecoder 0b0100011#7 = some ⟨false, some 0b01#2, true, true, none, false, 0b00#2⟩ ∧
  mainDecoder 0b0110011#7 = some ⟨true, none, false, false, some false, false, 0b10#2⟩ ∧
  mainDecoder 0b1100011#7 = some ⟨false, some 0b10#2, false, false, none, true, 0b01#2⟩ ∧
  ∀ op, op ∉ [0b0000011#7, 0b0100011#7, 0b0110011#7, 0b1100011#7] → mainDecoder op = none

/-- R124: the ALU decoder's truth table, row by row, and nothing for the inputs without a row. -/
def Obligations.AluDecoderHasTheSevenRows : Prop :=
  ∀ (f3 : BitVec 3) (op5 f7 : Bool),
    aluDecoder 0b00#2 f3 op5 f7 = some 0b000#3 ∧ aluDecoder 0b01#2 f3 op5 f7 = some 0b001#3 ∧
    aluDecoder 0b11#2 f3 op5 f7 = none ∧
    (f3 = 0b000#3 → aluDecoder 0b10#2 f3 op5 f7 = if op5 = true ∧ f7 = true then some 0b001#3 else some 0b000#3) ∧
    (f3 = 0b010#3 → aluDecoder 0b10#2 f3 op5 f7 = some 0b101#3) ∧
    (f3 = 0b110#3 → aluDecoder 0b10#2 f3 op5 f7 = some 0b011#3) ∧
    (f3 = 0b111#3 → aluDecoder 0b10#2 f3 op5 f7 = some 0b010#3) ∧
    (f3 ∈ [0b001#3, 0b011#3, 0b100#3, 0b101#3] → aluDecoder 0b10#2 f3 op5 f7 = none)

/-- R125: the ALU's five operations. -/
def Obligations.AluComputesTheFiveOperations : Prop :=
  ∀ a b : Word,
    aluResult 0b000#3 a b = BitVec.ofNat 32 (a.toNat + b.toNat) ∧
    aluResult 0b001#3 a b = BitVec.ofInt 32 ((a.toNat : Int) - (b.toNat : Int)) ∧
    aluResult 0b010#3 a b = a &&& b ∧ aluResult 0b011#3 a b = a ||| b ∧
    aluResult 0b101#3 a b = if a.toInt < b.toInt then 1#32 else 0#32

/-- R128: the four flags as arithmetic facts. That the carry of a subtraction is the adder's with the complement and a
carry in is the model's reading (log 14). -/
def Obligations.FlagsSayWhatTheAdderDid : Prop :=
  ∀ (ctrl : BitVec 3) (a b : Word),
    (flagZ ctrl a b = true ↔ aluResult ctrl a b = 0#32) ∧
    (flagN ctrl a b = true ↔ (aluResult ctrl a b).toInt < 0) ∧
    (flagC 0b000#3 a b = true ↔ 2 ^ 32 ≤ a.toNat + b.toNat) ∧
    (flagC 0b001#3 a b = true ↔ b.toNat ≤ a.toNat) ∧
    (flagV 0b000#3 a b = true ↔ a.toInt + b.toInt < -2 ^ 31 ∨ 2 ^ 31 ≤ a.toInt + b.toInt) ∧
    (flagV 0b001#3 a b = true ↔ a.toInt - b.toInt < -2 ^ 31 ∨ 2 ^ 31 ≤ a.toInt - b.toInt)

/-- R126, with the textbook's wiring of R120 (log 15): the datapath executes the documented instructions. For LW, SW, ADD,
SUB, SLT, OR, AND and BEQ, under any control signals the main decoder's row allows (its don't-cares at any value) and the ALU decoder's code, one datapath cycle writes
exactly what the instruction's meaning writes, whenever the instruction raises nothing. -/
def Obligations.DatapathExecutesTheDocumentedInstructions : Prop :=
  ∀ (w : Word) (i : Instr) (s t : State) (row : ControlRow) (c : Controls) (ctrl : BitVec 3),
    decodeWord w = .ok i → mnemonicOf i ∈ [Mnemonic.LW, .SW, .ADD, .SUB, .SLT, .OR, .AND, .BEQ] →
    mainDecoder (w.extractLsb' 0 7) = some row → row.allows c = true →
    aluDecoder c.aluOp (w.extractLsb' 12 3) (w.getLsbD 5) (w.getLsbD 30) = some ctrl →
    s.status = .running → exec i s = .next t → t.status = .running → datapathCycle c ctrl w s = t

/-- R127: with the textbook's row for op 0010011, which the source does not contain (log 15), the datapath executes ADDI,
SLTI, ORI and ANDI. -/
def Obligations.TextbookRowExecutesFourImmediates : Prop :=
  ∀ (w : Word) (i : Instr) (s t : State) (c : Controls) (ctrl : BitVec 3),
    decodeWord w = .ok i → mnemonicOf i ∈ [Mnemonic.ADDI, .SLTI, .ORI, .ANDI] → textbookOpImmRow.allows c = true →
    aluDecoder c.aluOp (w.extractLsb' 12 3) (w.getLsbD 5) (w.getLsbD 30) = some ctrl →
    exec i s = .next t → datapathCycle c ctrl w s = t

/-- R72: the pseudo-instructions' expansions do what their names say. -/
def Obligations.PseudoInstructionsDoWhatTheyName : Prop :=
  ∀ (rd rs : Reg) (imm : BitVec 12) (offset : BitVec 13) (s : State),
    CompletesJumping (expandPseudo .nop) s (s.pc + 4#32) ∧
    CompletesWriting (expandPseudo (.mv rd rs)) s rd (s.readReg rs) ∧
    CompletesWriting (expandPseudo (.li rd imm)) s rd (sext32 12 imm) ∧
    CompletesWriting (expandPseudo (.not rd rs)) s rd (~~~(s.readReg rs)) ∧
    CompletesWriting (expandPseudo (.seqz rd rs)) s rd (if s.readReg rs = 0#32 then 1#32 else 0#32) ∧
    CompletesWriting (expandPseudo (.neg rd rs)) s rd (-(s.readReg rs)) ∧
    CompletesWriting (expandPseudo (.sltz rd rs)) s rd (if (s.readReg rs).toInt < 0 then 1#32 else 0#32) ∧
    CompletesWriting (expandPseudo (.sgtz rd rs)) s rd (if 0 < (s.readReg rs).toInt then 1#32 else 0#32) ∧
    (s.readReg rs ≠ 0#32 → CompletesJumping (expandPseudo (.beqz rs offset)) s (s.pc + 4#32)) ∧
    (s.readReg rs = 0#32 → (s.pc + sext32 13 offset).toNat % 4 = 0 →
      CompletesJumping (expandPseudo (.beqz rs offset)) s (s.pc + sext32 13 offset))
end

