-- ==== Sys2Proof/Laws/Encoding.lean ====
section
/-! SUPPORT. The fields of an encoded word, and a word rebuilt from its fields. -/

namespace Sys2Proof

@[simp] theorem regOfBits_bitsOfReg (r : Reg) : regOfBits (bitsOfReg r) = r := rfl
@[simp] theorem bitsOfReg_regOfBits (b : BitVec 5) : bitsOfReg (regOfBits b) = b := rfl

/-! ### The I format -/

section
variable (op : BitVec 7) (f3 : BitVec 3) (rd rs1 : Reg) (imm : BitVec 12)

@[simp] theorem opField_encodeI : opField (encodeI op f3 rd rs1 imm) = op := by
  unfold opField encodeI; ext i h; simp; try grind
@[simp] theorem funct3Field_encodeI : funct3Field (encodeI op f3 rd rs1 imm) = f3 := by
  unfold funct3Field encodeI; ext i h; simp; try grind
@[simp] theorem rdField_encodeI : rdField (encodeI op f3 rd rs1 imm) = rd := by
  rw [← regOfBits_bitsOfReg rd]; unfold rdField encodeI
  congr 1; ext i h; simp; try grind
@[simp] theorem rs1Field_encodeI : rs1Field (encodeI op f3 rd rs1 imm) = rs1 := by
  rw [← regOfBits_bitsOfReg rs1]; unfold rs1Field encodeI
  congr 1; ext i h; simp; try grind
@[simp] theorem immIField_encodeI : immIField (encodeI op f3 rd rs1 imm) = imm := by
  unfold immIField encodeI; ext i h; simp; try grind

end

/-! ### The shift-immediate variant -/

section
variable (f7 : BitVec 7) (f3 : BitVec 3) (rd rs1 : Reg) (shamt : BitVec 5)

@[simp] theorem opField_encodeShift : opField (encodeShift f7 f3 rd rs1 shamt) = 0b0010011#7 := by
  unfold opField encodeShift; ext i h; simp; try grind
@[simp] theorem funct3Field_encodeShift : funct3Field (encodeShift f7 f3 rd rs1 shamt) = f3 := by
  unfold funct3Field encodeShift; ext i h; simp; try grind
@[simp] theorem funct7Field_encodeShift : funct7Field (encodeShift f7 f3 rd rs1 shamt) = f7 := by
  unfold funct7Field encodeShift; ext i h; simp; try grind
@[simp] theorem rdField_encodeShift : rdField (encodeShift f7 f3 rd rs1 shamt) = rd := by
  rw [← regOfBits_bitsOfReg rd]; unfold rdField encodeShift
  congr 1; ext i h; simp; try grind
@[simp] theorem rs1Field_encodeShift : rs1Field (encodeShift f7 f3 rd rs1 shamt) = rs1 := by
  rw [← regOfBits_bitsOfReg rs1]; unfold rs1Field encodeShift
  congr 1; ext i h; simp; try grind
@[simp] theorem shamtField_encodeShift : shamtField (encodeShift f7 f3 rd rs1 shamt) = shamt := by
  unfold shamtField encodeShift; ext i h; simp; try grind

end

/-! ### The R format -/

section
variable (f7 : BitVec 7) (f3 : BitVec 3) (rd rs1 rs2 : Reg)

@[simp] theorem opField_encodeR : opField (encodeR f7 f3 rd rs1 rs2) = 0b0110011#7 := by
  unfold opField encodeR; ext i h; simp; try grind
@[simp] theorem funct3Field_encodeR : funct3Field (encodeR f7 f3 rd rs1 rs2) = f3 := by
  unfold funct3Field encodeR; ext i h; simp; try grind
@[simp] theorem funct7Field_encodeR : funct7Field (encodeR f7 f3 rd rs1 rs2) = f7 := by
  unfold funct7Field encodeR; ext i h; simp; try grind
@[simp] theorem rdField_encodeR : rdField (encodeR f7 f3 rd rs1 rs2) = rd := by
  rw [← regOfBits_bitsOfReg rd]; unfold rdField encodeR
  congr 1; ext i h; simp; try grind
@[simp] theorem rs1Field_encodeR : rs1Field (encodeR f7 f3 rd rs1 rs2) = rs1 := by
  rw [← regOfBits_bitsOfReg rs1]; unfold rs1Field encodeR
  congr 1; ext i h; simp; try grind
@[simp] theorem rs2Field_encodeR : rs2Field (encodeR f7 f3 rd rs1 rs2) = rs2 := by
  rw [← regOfBits_bitsOfReg rs2]; unfold rs2Field encodeR
  congr 1; ext i h; simp; try grind

end

/-! ### The S format -/

section
variable (f3 : BitVec 3) (rs2 rs1 : Reg) (imm : BitVec 12)

@[simp] theorem opField_encodeS : opField (encodeS f3 rs2 rs1 imm) = 0b0100011#7 := by
  unfold opField encodeS; ext i h; simp; try grind
@[simp] theorem funct3Field_encodeS : funct3Field (encodeS f3 rs2 rs1 imm) = f3 := by
  unfold funct3Field encodeS; ext i h; simp; try grind
@[simp] theorem rs1Field_encodeS : rs1Field (encodeS f3 rs2 rs1 imm) = rs1 := by
  rw [← regOfBits_bitsOfReg rs1]; unfold rs1Field encodeS
  congr 1; ext i h; simp; try grind
@[simp] theorem rs2Field_encodeS : rs2Field (encodeS f3 rs2 rs1 imm) = rs2 := by
  rw [← regOfBits_bitsOfReg rs2]; unfold rs2Field encodeS
  congr 1; ext i h; simp; try grind
@[simp] theorem immSField_encodeS : immSField (encodeS f3 rs2 rs1 imm) = imm := by
  unfold immSField encodeS
  refine BitVec.eq_of_getLsbD_eq (fun i hi => ?_); simp only [BitVec.getLsbD_append, BitVec.getLsbD_extractLsb']; grind

end

/-! ### The B format -/

section
variable (f3 : BitVec 3) (rs1 rs2 : Reg) (offset : BitVec 13)

@[simp] theorem opField_encodeB : opField (encodeB f3 rs1 rs2 offset) = 0b1100011#7 := by
  unfold opField encodeB; ext i h; simp; try grind
@[simp] theorem funct3Field_encodeB : funct3Field (encodeB f3 rs1 rs2 offset) = f3 := by
  unfold funct3Field encodeB; ext i h; simp; try grind
@[simp] theorem rs1Field_encodeB : rs1Field (encodeB f3 rs1 rs2 offset) = rs1 := by
  rw [← regOfBits_bitsOfReg rs1]; unfold rs1Field encodeB
  congr 1; ext i h; simp; try grind
@[simp] theorem rs2Field_encodeB : rs2Field (encodeB f3 rs1 rs2 offset) = rs2 := by
  rw [← regOfBits_bitsOfReg rs2]; unfold rs2Field encodeB
  congr 1; ext i h; simp; try grind
/-- An even offset comes back whole; the encoding drops bit 0. -/
theorem immBField_encodeB (h : evenOffset offset = true) : immBField (encodeB f3 rs1 rs2 offset) = offset := by
  have h0 : offset.getLsbD 0 = false := by simpa [evenOffset] using h
  unfold immBField encodeB
  refine BitVec.eq_of_getLsbD_eq (fun i hi => ?_); simp only [BitVec.getLsbD_append, BitVec.getLsbD_extractLsb']; grind

end

/-- The offset a B-format word carries is even. -/
@[simp] theorem evenOffset_immBField (w : Word) : evenOffset (immBField w) = true := by
  have h : (immBField w).getLsbD 0 = false := by unfold immBField; rw [BitVec.getLsbD_append]; simp
  unfold evenOffset; rw [h]; rfl

/-! ### A word is what its fields make up -/

theorem encodeI_fields (w : Word) :
    encodeI (opField w) (funct3Field w) (rdField w) (rs1Field w) (immIField w) = w := by
  unfold encodeI opField funct3Field rdField rs1Field immIField
  simp only [bitsOfReg_regOfBits]
  refine BitVec.eq_of_getLsbD_eq (fun i hi => ?_); simp only [BitVec.getLsbD_append, BitVec.getLsbD_extractLsb']; grind

theorem encodeShift_fields (w : Word) (h : opField w = 0b0010011#7) :
    encodeShift (funct7Field w) (funct3Field w) (rdField w) (rs1Field w) (shamtField w) = w := by
  unfold encodeShift
  rw [← h]
  unfold opField funct3Field funct7Field rdField rs1Field shamtField
  simp only [bitsOfReg_regOfBits]
  refine BitVec.eq_of_getLsbD_eq (fun i hi => ?_); simp only [BitVec.getLsbD_append, BitVec.getLsbD_extractLsb']; grind

theorem encodeR_fields (w : Word) (h : opField w = 0b0110011#7) :
    encodeR (funct7Field w) (funct3Field w) (rdField w) (rs1Field w) (rs2Field w) = w := by
  unfold encodeR
  rw [← h]
  unfold opField funct3Field funct7Field rdField rs1Field rs2Field
  simp only [bitsOfReg_regOfBits]
  refine BitVec.eq_of_getLsbD_eq (fun i hi => ?_); simp only [BitVec.getLsbD_append, BitVec.getLsbD_extractLsb']; grind

theorem encodeS_fields (w : Word) (h : opField w = 0b0100011#7) :
    encodeS (funct3Field w) (rs2Field w) (rs1Field w) (immSField w) = w := by
  unfold encodeS
  rw [← h]
  unfold opField funct3Field immSField rs1Field rs2Field
  simp only [bitsOfReg_regOfBits]
  refine BitVec.eq_of_getLsbD_eq (fun i hi => ?_); simp only [BitVec.getLsbD_append, BitVec.getLsbD_extractLsb']; grind

theorem encodeB_fields (w : Word) (h : opField w = 0b1100011#7) :
    encodeB (funct3Field w) (rs1Field w) (rs2Field w) (immBField w) = w := by
  unfold encodeB
  rw [← h]
  unfold opField funct3Field immBField rs1Field rs2Field
  simp only [bitsOfReg_regOfBits]
  refine BitVec.eq_of_getLsbD_eq (fun i hi => ?_); simp only [BitVec.getLsbD_append, BitVec.getLsbD_extractLsb']; grind

/-! ### Masks -/

/-- The words that agree with a pattern under a mask agree with it in every field the mask covers (R66). -/
theorem extractLsb'_of_mask (w mask pattern : Word) (start len : Nat) (h : w &&& mask = pattern)
    (hm : mask.extractLsb' start len = BitVec.allOnes len) :
    w.extractLsb' start len = pattern.extractLsb' start len := by
  rw [← h, BitVec.extractLsb'_and, hm, BitVec.and_allOnes]

end Sys2Proof
end

