-- ==== Sys2Proof/Laws/State.lean ====
section
/-! SUPPORT. One lemma per field per update of the state, so that no later proof unfolds a record update. -/

namespace Sys2Proof.Machine

/-! ### writeReg -/

@[simp] theorem State.writeReg_pc (s : State) (r : Reg) (v : Word) : (s.writeReg r v).pc = s.pc := by unfold State.writeReg; split <;> rfl
@[simp] theorem State.writeReg_mem (s : State) (r : Reg) (v : Word) : (s.writeReg r v).mem = s.mem := by unfold State.writeReg; split <;> rfl
@[simp] theorem State.writeReg_imem (s : State) (r : Reg) (v : Word) : (s.writeReg r v).imem = s.imem := by unfold State.writeReg; split <;> rfl
@[simp] theorem State.writeReg_config (s : State) (r : Reg) (v : Word) : (s.writeReg r v).config = s.config := by unfold State.writeReg; split <;> rfl
@[simp] theorem State.writeReg_status (s : State) (r : Reg) (v : Word) : (s.writeReg r v).status = s.status := by unfold State.writeReg; split <;> rfl

/-! ### jump -/

@[simp] theorem State.jump_regs (s : State) (t : Word) : (s.jump t).regs = s.regs := rfl
@[simp] theorem State.jump_pc (s : State) (t : Word) : (s.jump t).pc = t := rfl
@[simp] theorem State.jump_mem (s : State) (t : Word) : (s.jump t).mem = s.mem := rfl
@[simp] theorem State.jump_imem (s : State) (t : Word) : (s.jump t).imem = s.imem := rfl
@[simp] theorem State.jump_config (s : State) (t : Word) : (s.jump t).config = s.config := rfl
@[simp] theorem State.jump_status (s : State) (t : Word) : (s.jump t).status = s.status := rfl

/-! ### advance -/

@[simp] theorem State.advance_regs (s : State) : (s.advance).regs = s.regs := rfl
@[simp] theorem State.advance_pc (s : State) : (s.advance).pc = s.pc + 4#32 := rfl
@[simp] theorem State.advance_mem (s : State) : (s.advance).mem = s.mem := rfl
@[simp] theorem State.advance_imem (s : State) : (s.advance).imem = s.imem := rfl
@[simp] theorem State.advance_config (s : State) : (s.advance).config = s.config := rfl
@[simp] theorem State.advance_status (s : State) : (s.advance).status = s.status := rfl

/-! ### raise -/

@[simp] theorem State.raise_regs (s : State) (e : Exception) : (s.raise e).regs = s.regs := rfl
@[simp] theorem State.raise_pc (s : State) (e : Exception) : (s.raise e).pc = s.pc := rfl
@[simp] theorem State.raise_mem (s : State) (e : Exception) : (s.raise e).mem = s.mem := rfl
@[simp] theorem State.raise_imem (s : State) (e : Exception) : (s.raise e).imem = s.imem := rfl
@[simp] theorem State.raise_config (s : State) (e : Exception) : (s.raise e).config = s.config := rfl
@[simp] theorem State.raise_status (s : State) (e : Exception) : (s.raise e).status = .faulted e := rfl

/-! ### endRun -/

@[simp] theorem State.endRun_regs (s : State) : (s.endRun).regs = s.regs := rfl
@[simp] theorem State.endRun_pc (s : State) : (s.endRun).pc = s.pc := rfl
@[simp] theorem State.endRun_mem (s : State) : (s.endRun).mem = s.mem := rfl
@[simp] theorem State.endRun_imem (s : State) : (s.endRun).imem = s.imem := rfl
@[simp] theorem State.endRun_config (s : State) : (s.endRun).config = s.config := rfl
@[simp] theorem State.endRun_status (s : State) : (s.endRun).status = .ended := rfl

/-! ### retire -/

@[simp] theorem State.retire_pc (s : State) (r : Reg) (v : Word) : (s.retire r v).pc = s.pc + 4#32 := by simp [State.retire]
@[simp] theorem State.retire_mem (s : State) (r : Reg) (v : Word) : (s.retire r v).mem = s.mem := by simp [State.retire]
@[simp] theorem State.retire_imem (s : State) (r : Reg) (v : Word) : (s.retire r v).imem = s.imem := by simp [State.retire]
@[simp] theorem State.retire_config (s : State) (r : Reg) (v : Word) : (s.retire r v).config = s.config := by simp [State.retire]
@[simp] theorem State.retire_status (s : State) (r : Reg) (v : Word) : (s.retire r v).status = s.status := by simp [State.retire]

/-! ### storeWord -/

@[simp] theorem State.storeWord_regs (s : State) (a v : Word) : (s.storeWord a v).regs = s.regs := rfl
@[simp] theorem State.storeWord_pc (s : State) (a v : Word) : (s.storeWord a v).pc = s.pc := rfl
@[simp] theorem State.storeWord_mem (s : State) (a v : Word) : (s.storeWord a v).mem = s.mem.setWord s.config.byteOrder a.toNat v := rfl
@[simp] theorem State.storeWord_imem (s : State) (a v : Word) : (s.storeWord a v).imem = s.imem := rfl
@[simp] theorem State.storeWord_config (s : State) (a v : Word) : (s.storeWord a v).config = s.config := rfl
@[simp] theorem State.storeWord_status (s : State) (a v : Word) : (s.storeWord a v).status = s.status := rfl

/-! ### The launch state -/

@[simp] theorem State.launch_pc (c : Config) (p : List Word) (g : Vector Word 31) (m : Memory) :
    (State.launch c p g m).pc = c.resetPc := rfl
@[simp] theorem State.launch_status (c : Config) (p : List Word) (g : Vector Word 31) (m : Memory) :
    (State.launch c p g m).status = .running := rfl
@[simp] theorem State.launch_mem (c : Config) (p : List Word) (g : Vector Word 31) (m : Memory) :
    (State.launch c p g m).mem = m := rfl
@[simp] theorem State.launch_imem (c : Config) (p : List Word) (g : Vector Word 31) (m : Memory) :
    (State.launch c p g m).imem = p := rfl
@[simp] theorem State.launch_config (c : Config) (p : List Word) (g : Vector Word 31) (m : Memory) :
    (State.launch c p g m).config = c := rfl

/-! ### Registers, which only `writeReg` and `retire` change -/

@[simp] theorem State.readReg_zero (s : State) : s.readReg 0 = 0#32 := rfl

/-- A state's registers are read from the field `regs` alone. -/
theorem State.readReg_congr (s t : State) (h : s.regs = t.regs) (r : Reg) : s.readReg r = t.readReg r := by
  simp [State.readReg, h]

@[simp] theorem State.readReg_jump (s : State) (t : Word) (r : Reg) : (s.jump t).readReg r = s.readReg r := rfl
@[simp] theorem State.readReg_advance (s : State) (r : Reg) : s.advance.readReg r = s.readReg r := rfl
@[simp] theorem State.readReg_raise (s : State) (e : Exception) (r : Reg) : (s.raise e).readReg r = s.readReg r := rfl
@[simp] theorem State.readReg_endRun (s : State) (r : Reg) : s.endRun.readReg r = s.readReg r := rfl
@[simp] theorem State.readReg_storeWord (s : State) (a v : Word) (r : Reg) :
    (s.storeWord a v).readReg r = s.readReg r := rfl

/-- A write to `x0` changes nothing (R11). -/
@[simp] theorem State.writeReg_zero (s : State) (v : Word) : s.writeReg 0 v = s := rfl

/-- Reading any register after writing one (R11). -/
theorem State.readReg_writeReg (s : State) (r q : Reg) (v : Word) :
    (s.writeReg r v).readReg q = if q = r ∧ r ≠ 0 then v else s.readReg q := by
  unfold State.writeReg State.readReg
  by_cases hr : r.val = 0
  · have : r = 0 := Fin.ext hr
    subst this
    simp
  · have h0 : r ≠ 0 := fun h => hr (by rw [h]; rfl)
    by_cases hq : q.val = 0
    · have : q ≠ r := fun h => hr (by rw [← h, hq])
      simp [hq, this]
    · by_cases hqr : q = r
      · subst hqr
        simp [hr, h0]
      · have : r.val - 1 ≠ q.val - 1 := fun h => hqr (Fin.ext (by omega))
        simp [hr, hq, hqr, this]

/-- Reading any register after an instruction with destination `rd` has retired. -/
theorem State.readReg_retire (s : State) (rd q : Reg) (v : Word) :
    (s.retire rd v).readReg q = if q = rd ∧ rd ≠ 0 then v else s.readReg q := by
  simp [State.retire, State.readReg_writeReg]

/-- The destination after an instruction has retired: the value, or 0 for `x0`. -/
theorem State.readReg_retire_same (s : State) (rd : Reg) (v : Word) :
    (s.retire rd v).readReg rd = if rd = 0 then 0#32 else v := by
  by_cases h : rd = 0 <;> simp [State.readReg_retire, h]

/-- Every other register is as before. -/
theorem State.readReg_retire_other (s : State) (rd q : Reg) (v : Word) (h : q ≠ rd) :
    (s.retire rd v).readReg q = s.readReg q := by
  simp [State.readReg_retire, h]

end Sys2Proof.Machine
end

