-- ==== Sys2Proof/Laws/Memory.lean ====
section
/-! SUPPORT. Data memory: what one byte write does, that it keeps the canonical form, and the same for a word store. -/

namespace Sys2Proof.Machine

/-! ### One byte -/

/-- Every other byte reads as before, whatever the memory's form. -/
theorem Memory.byteAt_setByte_other (m : Memory) (a a' : Nat) (b : Byte) (h : a' ≠ a) :
    (m.setByte a b).byteAt a' = m.byteAt a' := by
  induction m with
  | nil => unfold Memory.setByte; split <;> simp [Memory.byteAt, Ne.symm h]
  | cons c rest ih =>
    obtain ⟨k, v⟩ := c
    unfold Memory.setByte
    have ha : a ≠ a' := Ne.symm h
    split_ifs with h1 h2 h3 h4
    · rfl
    · simp [Memory.byteAt, ha]
    · have hk : k ≠ a' := h3 ▸ ha
      simp [Memory.byteAt, hk]
    · have hk : k ≠ a' := h3 ▸ ha
      simp [Memory.byteAt, hk, ha]
    · simp [Memory.byteAt, ih]

/-- An address below every listed one is not listed. -/
theorem Memory.byteAt_of_below (m : Memory) (a : Nat) (h : ∀ c ∈ m, a < c.1) : m.byteAt a = unlistedByte := by
  induction m with
  | nil => rfl
  | cons c rest ih =>
    obtain ⟨k, v⟩ := c
    have hk : a < k := h (k, v) (by simp)
    have : k ≠ a := by omega
    simp only [Memory.byteAt, this, if_false]
    exact ih (fun d hd => h d (by simp [hd]))

/-- The byte written reads back (canonical form). -/
theorem Memory.byteAt_setByte_same (m : Memory) (a : Nat) (b : Byte) (hm : m.wf) : (m.setByte a b).byteAt a = b := by
  induction m with
  | nil => unfold Memory.setByte; split <;> simp_all [Memory.byteAt]
  | cons c rest ih =>
    obtain ⟨k, v⟩ := c
    obtain ⟨hp, hv⟩ := hm
    rw [List.pairwise_cons] at hp
    have hrest : Memory.wf rest := ⟨hp.2, fun d hd => hv d (by simp [hd])⟩
    unfold Memory.setByte
    split_ifs with h1 h2 h3 h4
    · rw [h2]
      refine Memory.byteAt_of_below _ _ (fun d hd => ?_)
      rcases List.mem_cons.1 hd with rfl | hd
      · exact h1
      · exact lt_trans h1 (hp.1 d hd)
    · simp [Memory.byteAt]
    · rw [h4]
      exact Memory.byteAt_of_below _ _ (fun d hd => h3 ▸ hp.1 d hd)
    · simp [Memory.byteAt]
    · have : k ≠ a := Ne.symm h3
      simp only [Memory.byteAt, this, if_false]
      exact ih hrest

/-- What an entry of the memory after a write is: the byte written or an entry from before. -/
theorem Memory.mem_setByte (m : Memory) (a : Nat) (b : Byte) (c : Host.Cell) (h : c ∈ m.setByte a b) :
    c = (a, b) ∨ c ∈ m := by
  induction m with
  | nil => unfold Memory.setByte at h; split at h <;> simp_all
  | cons d rest ih =>
    obtain ⟨k, v⟩ := d
    unfold Memory.setByte at h
    split_ifs at h with h1 h2 h3 h4
    · exact .inr h
    · exact List.mem_cons.1 h
    · exact .inr (by simp [h])
    · rcases List.mem_cons.1 h with h | h
      · exact .inl h
      · exact .inr (by simp [h])
    · rcases List.mem_cons.1 h with h | h
      · exact .inr (by simp [h])
      · rcases ih h with h | h
        · exact .inl h
        · exact .inr (by simp [h])

/-- A byte write keeps the canonical form. -/
theorem Memory.setByte_wf (m : Memory) (a : Nat) (b : Byte) (hm : m.wf) : (m.setByte a b).wf := by
  induction m with
  | nil => unfold Memory.setByte; split <;> simp_all [Memory.wf]
  | cons c rest ih =>
    obtain ⟨k, v⟩ := c
    obtain ⟨hp, hv⟩ := hm
    have hp' := hp
    rw [List.pairwise_cons] at hp'
    have hrest : Memory.wf rest := ⟨hp'.2, fun d hd => hv d (by simp [hd])⟩
    have hk : v ≠ unlistedByte := hv (k, v) (by simp)
    unfold Memory.setByte
    split_ifs with h1 h2 h3 h4
    · exact ⟨hp, hv⟩
    · refine ⟨List.pairwise_cons.2 ⟨fun d hd => ?_, hp⟩, fun d hd => ?_⟩
      · rcases List.mem_cons.1 hd with rfl | hd
        · exact h1
        · exact lt_trans h1 (hp'.1 d hd)
      · rcases List.mem_cons.1 hd with rfl | hd
        · exact h2
        · exact hv d hd
    · exact hrest
    · refine ⟨List.pairwise_cons.2 ⟨fun d hd => h3 ▸ hp'.1 d hd, hp'.2⟩, fun d hd => ?_⟩
      rcases List.mem_cons.1 hd with rfl | hd
      · exact h4
      · exact hrest.2 d hd
    · obtain ⟨ihp, ihv⟩ := ih hrest
      refine ⟨List.pairwise_cons.2 ⟨fun d hd => ?_, ihp⟩, fun d hd => ?_⟩
      · rcases Memory.mem_setByte _ _ _ _ hd with rfl | hd
        · change k < a
          omega
        · exact hp'.1 d hd
      · rcases List.mem_cons.1 hd with rfl | hd
        · exact hk
        · exact ihv d hd

/-! ### A word store -/

/-- A word store keeps the canonical form. -/
theorem Memory.setWord_wf (m : Memory) (o : ByteOrder) (a : Nat) (v : Word) (hm : m.wf) : (m.setWord o a v).wf :=
  Memory.setByte_wf _ _ _ (Memory.setByte_wf _ _ _ (Memory.setByte_wf _ _ _ (Memory.setByte_wf _ _ _ hm)))

/-- Outside the four bytes a word store changes nothing, whatever the memory's form. -/
theorem Memory.byteAt_setWord_other (m : Memory) (o : ByteOrder) (a a' : Nat) (v : Word) (h : a' < a ∨ a + 4 ≤ a') :
    (m.setWord o a v).byteAt a' = m.byteAt a' := by
  unfold Memory.setWord
  rw [Memory.byteAt_setByte_other _ _ _ _ (by omega), Memory.byteAt_setByte_other _ _ _ _ (by omega),
    Memory.byteAt_setByte_other _ _ _ _ (by omega), Memory.byteAt_setByte_other _ _ _ _ (by omega)]

/-- The four bytes after a word store (canonical form). -/
theorem Memory.byteAt_setWord_inside (m : Memory) (o : ByteOrder) (a k : Nat) (v : Word) (hm : m.wf) (hk : k < 4) :
    (m.setWord o a v).byteAt (a + k) = byteOfWord o v k := by
  have h1 := Memory.setByte_wf m a (byteOfWord o v 0) hm
  have h2 := Memory.setByte_wf _ (a + 1) (byteOfWord o v 1) h1
  have h3 := Memory.setByte_wf _ (a + 2) (byteOfWord o v 2) h2
  unfold Memory.setWord
  obtain rfl | rfl | rfl | rfl : k = 0 ∨ k = 1 ∨ k = 2 ∨ k = 3 := by omega
  · rw [Memory.byteAt_setByte_other _ _ _ _ (by omega), Memory.byteAt_setByte_other _ _ _ _ (by omega),
      Memory.byteAt_setByte_other _ _ _ _ (by omega), Nat.add_zero, Memory.byteAt_setByte_same _ _ _ hm]
  · rw [Memory.byteAt_setByte_other _ _ _ _ (by omega), Memory.byteAt_setByte_other _ _ _ _ (by omega),
      Memory.byteAt_setByte_same _ _ _ h1]
  · rw [Memory.byteAt_setByte_other _ _ _ _ (by omega), Memory.byteAt_setByte_same _ _ _ h2]
  · rw [Memory.byteAt_setByte_same _ _ _ h3]

/-- What an entry after a word store is: one of the four bytes or an entry from before. -/
theorem Memory.mem_setWord (m : Memory) (o : ByteOrder) (a : Nat) (v : Word) (c : Host.Cell) (h : c ∈ m.setWord o a v) :
    (a ≤ c.1 ∧ c.1 < a + 4) ∨ c ∈ m := by
  unfold Memory.setWord at h
  rcases Memory.mem_setByte _ _ _ _ h with rfl | h
  · exact .inl (by simp)
  rcases Memory.mem_setByte _ _ _ _ h with rfl | h
  · exact .inl (by simp)
  rcases Memory.mem_setByte _ _ _ _ h with rfl | h
  · exact .inl (by simp)
  rcases Memory.mem_setByte _ _ _ _ h with rfl | h
  · exact .inl (by simp)
  exact .inr h

/-! ### Words and their bytes -/

/-- The four bytes of a word make up that word, in either order. -/
theorem wordOfBytes_byteOfWord (o : ByteOrder) (v : Word) :
    wordOfBytes o (byteOfWord o v 0) (byteOfWord o v 1) (byteOfWord o v 2) (byteOfWord o v 3) = v := by
  cases o <;> simp only [wordOfBytes, byteOfWord] <;> ext i h <;> simp <;> grind

/-- A word read back where it was stored (canonical form). -/
theorem Memory.wordAt_setWord (m : Memory) (o : ByteOrder) (a : Nat) (v : Word) (hm : m.wf) :
    (m.setWord o a v).wordAt o a = v := by
  have h0 := Memory.byteAt_setWord_inside m o a 0 v hm (by omega)
  rw [Nat.add_zero] at h0
  unfold Memory.wordAt
  rw [h0, Memory.byteAt_setWord_inside m o a 1 v hm (by omega), Memory.byteAt_setWord_inside m o a 2 v hm (by omega),
    Memory.byteAt_setWord_inside m o a 3 v hm (by omega), wordOfBytes_byteOfWord]

end Sys2Proof.Machine
end

