-- ==== Sys2Proof/Laws/Exec.lean ====
section
/-! SUPPORT. What each shared operation and `exec` can do, said once: which exception an instruction raises in a state, and
what it leaves otherwise. -/

namespace Sys2Proof.Machine

@[simp] theorem aligned_iff (a : Word) (n : Nat) : aligned a n = true ↔ a.toNat % n = 0 := by
  simp [aligned]

@[simp] theorem aligned_eq_false_iff (a : Word) (n : Nat) : aligned a n = false ↔ a.toNat % n ≠ 0 := by
  simp [aligned]

/-- A range that holds four bytes holds the first of them. -/
theorem State.inDataMemory_mono (s : State) (a : Word) (n k : Nat) (hk : k ≤ n) (h : s.inDataMemory a n = true) :
    s.inDataMemory a k = true := by
  simp only [State.inDataMemory, decide_eq_true_eq] at *
  omega

/-- The exception an instruction raises in a state, if any (spec/60_exceptions.md R170). -/
def exceptionOf (i : Instr) (s : State) : Option Exception :=
  match i with
  | .lb _ rs1 imm => s.loadException (s.effectiveAddress rs1 imm) 1
  | .lh _ rs1 imm => s.loadException (s.effectiveAddress rs1 imm) 2
  | .lw _ rs1 imm => s.loadException (s.effectiveAddress rs1 imm) 4
  | .lbu _ rs1 imm => s.loadException (s.effectiveAddress rs1 imm) 1
  | .lhu _ rs1 imm => s.loadException (s.effectiveAddress rs1 imm) 2
  | .sw _ rs1 imm => s.storeException (s.effectiveAddress rs1 imm) 4
  | .beq rs1 rs2 offset =>
    if s.readReg rs1 = s.readReg rs2 ∧ (s.branchTarget offset).toNat % 4 ≠ 0 then
      some (.instructionAddressMisaligned (s.branchTarget offset))
    else none
  | .addi _ _ _ => none
  | .slti _ _ _ => none
  | .sltiu _ _ _ => none
  | .xori _ _ _ => none
  | .ori _ _ _ => none
  | .andi _ _ _ => none
  | .slli _ _ _ => none
  | .srli _ _ _ => none
  | .srai _ _ _ => none
  | .add _ _ _ => none
  | .sub _ _ _ => none
  | .slt _ _ _ => none
  | .or _ _ _ => none
  | .and _ _ _ => none

/-- A load that raises. -/
theorem load_raises (n : Nat) (f : Memory → ByteOrder → Nat → Word) (rd rs1 : Reg) (imm : BitVec 12) (s : State)
    (e : Exception) (h : s.loadException (s.effectiveAddress rs1 imm) n = some e) :
    load n f rd rs1 imm s = .next (s.raise e) := by
  simp [load, h]

/-- A load that does not raise. -/
theorem load_completes (n : Nat) (f : Memory → ByteOrder → Nat → Word) (rd rs1 : Reg) (imm : BitVec 12) (s : State)
    (h : s.loadException (s.effectiveAddress rs1 imm) n = none) :
    load n f rd rs1 imm s =
      .next (s.retire rd (f s.mem s.config.byteOrder (s.effectiveAddress rs1 imm).toNat)) := by
  simp [load, h]

/-- An instruction that raises ends in the raised state (R171). -/
theorem exec_raises (i : Instr) (s : State) (e : Exception) (h : exceptionOf i s = some e) :
    exec i s = .next (s.raise e) := by
  cases i <;> simp only [exceptionOf, reduceCtorEq] at h
  case lb rd rs1 imm => exact load_raises 1 (fun m _ a => (m.byteAt a).signExtend 32) rd rs1 imm s e h
  case lh rd rs1 imm => exact load_raises 2 (fun m o a => (m.halfAt o a).signExtend 32) rd rs1 imm s e h
  case lw rd rs1 imm => exact load_raises 4 (fun m o a => m.wordAt o a) rd rs1 imm s e h
  case lbu rd rs1 imm => exact load_raises 1 (fun m _ a => (m.byteAt a).zeroExtend 32) rd rs1 imm s e h
  case lhu rd rs1 imm => exact load_raises 2 (fun m o a => (m.halfAt o a).zeroExtend 32) rd rs1 imm s e h
  case sw => simp [exec, execSw, h]
  case beq rs1 rs2 offset =>
    split at h
    · next hc =>
      cases h
      have hn : ¬ aligned (s.branchTarget offset) 4 = true := by simpa using hc.2
      simp only [exec, execBeq, if_pos hc.1, if_neg hn]
    · cases h

/-- What an instruction that raises nothing leaves: a destination written and `pc` advanced; SW: the word stored and `pc`
advanced; BEQ: `pc` at its aligned target or advanced. -/
inductive Completed (i : Instr) (s : State) : State → Prop where
  | retired (rd : Reg) (v : Word) : destinationOf i = some rd → Completed i s (s.retire rd v)
  | stored (rs2 rs1 : Reg) (imm : BitVec 12) : i = .sw rs2 rs1 imm →
      s.storeException (s.effectiveAddress rs1 imm) 4 = none →
      Completed i s (s.storeWord (s.effectiveAddress rs1 imm) (s.readReg rs2)).advance
  | taken (rs1 rs2 : Reg) (offset : BitVec 13) : i = .beq rs1 rs2 offset → s.readReg rs1 = s.readReg rs2 →
      (s.branchTarget offset).toNat % 4 = 0 → Completed i s (s.jump (s.branchTarget offset))
  | notTaken (rs1 rs2 : Reg) (offset : BitVec 13) : i = .beq rs1 rs2 offset → s.readReg rs1 ≠ s.readReg rs2 →
      Completed i s s.advance

/-- An instruction that raises nothing completes. -/
theorem exec_completes (i : Instr) (s : State) (h : exceptionOf i s = none) :
    ∃ t, exec i s = .next t ∧ Completed i s t := by
  cases i
  case lb rd rs1 imm =>
    exact ⟨_, load_completes 1 (fun m _ a => (m.byteAt a).signExtend 32) rd rs1 imm s h, .retired _ _ rfl⟩
  case lh rd rs1 imm =>
    exact ⟨_, load_completes 2 (fun m o a => (m.halfAt o a).signExtend 32) rd rs1 imm s h, .retired _ _ rfl⟩
  case lw rd rs1 imm =>
    exact ⟨_, load_completes 4 (fun m o a => m.wordAt o a) rd rs1 imm s h, .retired _ _ rfl⟩
  case lbu rd rs1 imm =>
    exact ⟨_, load_completes 1 (fun m _ a => (m.byteAt a).zeroExtend 32) rd rs1 imm s h, .retired _ _ rfl⟩
  case lhu rd rs1 imm =>
    exact ⟨_, load_completes 2 (fun m o a => (m.halfAt o a).zeroExtend 32) rd rs1 imm s h, .retired _ _ rfl⟩
  case sw rs2 rs1 imm =>
    simp only [exceptionOf] at h
    exact ⟨_, by simp [exec, execSw, h], .stored rs2 rs1 imm rfl h⟩
  case beq rs1 rs2 offset =>
    simp only [exceptionOf] at h
    split at h
    · cases h
    · next hc =>
      by_cases he : s.readReg rs1 = s.readReg rs2
      · have ha : (s.branchTarget offset).toNat % 4 = 0 := by
          by_contra hne
          exact hc ⟨he, hne⟩
        have ha' : aligned (s.branchTarget offset) 4 = true := by simpa using ha
        exact ⟨_, by simp only [exec, execBeq, if_pos he, if_pos ha'], .taken rs1 rs2 offset rfl he ha⟩
      · exact ⟨_, by simp only [exec, execBeq, if_neg he], .notTaken rs1 rs2 offset rfl he⟩
  all_goals exact ⟨_, rfl, .retired _ _ rfl⟩

/-- Everything `exec` can do: it always answers a next state, raised or completed. -/
theorem exec_cases (i : Instr) (s t : State) (h : exec i s = .next t) :
    (∃ e, exceptionOf i s = some e ∧ t = s.raise e) ∨ (exceptionOf i s = none ∧ Completed i s t) := by
  cases hx : exceptionOf i s with
  | some e =>
    rw [exec_raises i s e hx] at h
    cases h
    exact .inl ⟨e, rfl, rfl⟩
  | none =>
    obtain ⟨u, hu, hc⟩ := exec_completes i s hx
    rw [hu] at h
    cases h
    exact .inr ⟨rfl, hc⟩

/-- `exec` answers a next state for every instruction in every state. -/
theorem exec_next (i : Instr) (s : State) : ∃ t, exec i s = .next t := by
  cases hx : exceptionOf i s with
  | some e => exact ⟨_, exec_raises i s e hx⟩
  | none => exact (exec_completes i s hx).imp fun _ h => h.1

/-- A completed instruction leaves the status, the image and the configuration. -/
theorem Completed.keeps {i : Instr} {s t : State} (h : Completed i s t) :
    t.status = s.status ∧ t.imem = s.imem ∧ t.config = s.config := by
  cases h <;> simp

/-- A load raises misalignment first, then the range (R35, R179). -/
theorem State.loadException_eq_some (s : State) (a : Word) (n : Nat) (e : Exception)
    (h : s.loadException a n = some e) :
    (e = .loadAddressMisaligned a ∧ a.toNat % n ≠ 0) ∨
      (e = .loadAccessFault a ∧ a.toNat % n = 0 ∧ s.inDataMemory a n = false) := by
  unfold State.loadException at h
  split_ifs at h with h1 h2 <;> simp_all

/-- A load raises nothing exactly on an aligned address inside the data memory (R35). -/
theorem State.loadException_eq_none (s : State) (a : Word) (n : Nat) :
    s.loadException a n = none ↔ a.toNat % n = 0 ∧ s.inDataMemory a n = true := by
  unfold State.loadException
  split_ifs with h1 h2 <;> simp_all

/-- A store raises misalignment first, then the range or the overlap with the image (R35, R45, R179). -/
theorem State.storeException_eq_some (s : State) (a : Word) (n : Nat) (e : Exception)
    (h : s.storeException a n = some e) :
    (e = .storeAddressMisaligned a ∧ a.toNat % n ≠ 0) ∨
      (e = .storeAccessFault a ∧ a.toNat % n = 0 ∧
        (s.inDataMemory a n = false ∨ s.config.faultOnStoreToText = true ∧ s.overlapsImage a n = true)) := by
  unfold State.storeException at h
  split_ifs at h with h1 h2 h3 <;> simp_all

/-- A store raises nothing exactly on an aligned address inside the data memory and, with the switch on, outside the
image's addresses (R35, R45). -/
theorem State.storeException_eq_none (s : State) (a : Word) (n : Nat) :
    s.storeException a n = none ↔ a.toNat % n = 0 ∧ s.inDataMemory a n = true ∧
      ¬ (s.config.faultOnStoreToText = true ∧ s.overlapsImage a n = true) := by
  unfold State.storeException
  split_ifs with h1 h2 h3 <;> simp_all

end Sys2Proof.Machine
end

