-- ==== Sys2Proof/Laws/PerInstr.lean ====
section
/-! SUPPORT. Facts stated of every instruction as syntax, one lemma per constructor. `MatchesRow`: an instruction's word
matches the row of the opcode map that bears its mnemonic and its tier (spec/30_encoding.md R66); every such word ends in
11 (R70). -/

namespace Sys2Proof.Laws.MatchesRow

/-- The word of `i` matches a row of the map with `i`'s mnemonic and tier, and ends in 11. -/
def Statement (i : Instr) : Prop :=
  (∃ row ∈ opcodeMap, row.mnemonic = mnemonicOf i ∧ row.tier = tierOf i ∧ encode i &&& row.mask = row.pattern) ∧
    (encode i).extractLsb' 0 2 = 0b11#2

theorem encodeI_mask (op : BitVec 7) (f3 : BitVec 3) (rd rs1 : Reg) (imm : BitVec 12) :
    encodeI op f3 rd rs1 imm &&& 0x0000707F#32 = 0#17 ++ f3 ++ 0#5 ++ op := by
  unfold encodeI
  refine BitVec.eq_of_getLsbD_eq (fun i hi => ?_)
  simp only [BitVec.getLsbD_and, BitVec.getLsbD_append]
  interval_cases i <;> simp
theorem encodeS_mask (f3 : BitVec 3) (rs2 rs1 : Reg) (imm : BitVec 12) :
    encodeS f3 rs2 rs1 imm &&& 0x0000707F#32 = 0#17 ++ f3 ++ 0#5 ++ 0b0100011#7 := by
  unfold encodeS
  refine BitVec.eq_of_getLsbD_eq (fun i hi => ?_)
  simp only [BitVec.getLsbD_and, BitVec.getLsbD_append]
  interval_cases i <;> simp
theorem encodeB_mask (f3 : BitVec 3) (rs1 rs2 : Reg) (offset : BitVec 13) :
    encodeB f3 rs1 rs2 offset &&& 0x0000707F#32 = 0#17 ++ f3 ++ 0#5 ++ 0b1100011#7 := by
  unfold encodeB
  refine BitVec.eq_of_getLsbD_eq (fun i hi => ?_)
  simp only [BitVec.getLsbD_and, BitVec.getLsbD_append]
  interval_cases i <;> simp
theorem encodeR_mask (f7 : BitVec 7) (f3 : BitVec 3) (rd rs1 rs2 : Reg) :
    encodeR f7 f3 rd rs1 rs2 &&& 0xFE00707F#32 = f7 ++ 0#10 ++ f3 ++ 0#5 ++ 0b0110011#7 := by
  unfold encodeR
  refine BitVec.eq_of_getLsbD_eq (fun i hi => ?_)
  simp only [BitVec.getLsbD_and, BitVec.getLsbD_append]
  interval_cases i <;> simp
theorem encodeShift_mask (f7 : BitVec 7) (f3 : BitVec 3) (rd rs1 : Reg) (shamt : BitVec 5) :
    encodeShift f7 f3 rd rs1 shamt &&& 0xFE00707F#32 = f7 ++ 0#10 ++ f3 ++ 0#5 ++ 0b0010011#7 := by
  unfold encodeShift
  refine BitVec.eq_of_getLsbD_eq (fun i hi => ?_)
  simp only [BitVec.getLsbD_and, BitVec.getLsbD_append]
  interval_cases i <;> simp

/-- The last two bits of a word are those of its opcode. -/
theorem lowBits (w : Word) (op : BitVec 7) (h : opField w = op) (hop : op.extractLsb' 0 2 = 0b11#2) :
    w.extractLsb' 0 2 = 0b11#2 := by
  rw [← hop, ← h]
  unfold opField
  refine BitVec.eq_of_getLsbD_eq (fun i hi => ?_)
  interval_cases i <;> simp

theorem lb (rd rs1 : Reg) (imm : BitVec 12) : Statement (.lb rd rs1 imm) :=
  ⟨⟨⟨.LB, 0x00000003#32, 0x0000707F#32, .t2⟩, by decide, rfl, rfl, encodeI_mask _ _ _ _ _⟩,
    lowBits _ _ (opField_encodeI _ _ _ _ _) (by decide)⟩
theorem lh (rd rs1 : Reg) (imm : BitVec 12) : Statement (.lh rd rs1 imm) :=
  ⟨⟨⟨.LH, 0x00001003#32, 0x0000707F#32, .t2⟩, by decide, rfl, rfl, encodeI_mask _ _ _ _ _⟩,
    lowBits _ _ (opField_encodeI _ _ _ _ _) (by decide)⟩
theorem lw (rd rs1 : Reg) (imm : BitVec 12) : Statement (.lw rd rs1 imm) :=
  ⟨⟨⟨.LW, 0x00002003#32, 0x0000707F#32, .t1⟩, by decide, rfl, rfl, encodeI_mask _ _ _ _ _⟩,
    lowBits _ _ (opField_encodeI _ _ _ _ _) (by decide)⟩
theorem lbu (rd rs1 : Reg) (imm : BitVec 12) : Statement (.lbu rd rs1 imm) :=
  ⟨⟨⟨.LBU, 0x00004003#32, 0x0000707F#32, .t2⟩, by decide, rfl, rfl, encodeI_mask _ _ _ _ _⟩,
    lowBits _ _ (opField_encodeI _ _ _ _ _) (by decide)⟩
theorem lhu (rd rs1 : Reg) (imm : BitVec 12) : Statement (.lhu rd rs1 imm) :=
  ⟨⟨⟨.LHU, 0x00005003#32, 0x0000707F#32, .t2⟩, by decide, rfl, rfl, encodeI_mask _ _ _ _ _⟩,
    lowBits _ _ (opField_encodeI _ _ _ _ _) (by decide)⟩
theorem addi (rd rs1 : Reg) (imm : BitVec 12) : Statement (.addi rd rs1 imm) :=
  ⟨⟨⟨.ADDI, 0x00000013#32, 0x0000707F#32, .t2⟩, by decide, rfl, rfl, encodeI_mask _ _ _ _ _⟩,
    lowBits _ _ (opField_encodeI _ _ _ _ _) (by decide)⟩
theorem slti (rd rs1 : Reg) (imm : BitVec 12) : Statement (.slti rd rs1 imm) :=
  ⟨⟨⟨.SLTI, 0x00002013#32, 0x0000707F#32, .t2⟩, by decide, rfl, rfl, encodeI_mask _ _ _ _ _⟩,
    lowBits _ _ (opField_encodeI _ _ _ _ _) (by decide)⟩
theorem sltiu (rd rs1 : Reg) (imm : BitVec 12) : Statement (.sltiu rd rs1 imm) :=
  ⟨⟨⟨.SLTIU, 0x00003013#32, 0x0000707F#32, .t2⟩, by decide, rfl, rfl, encodeI_mask _ _ _ _ _⟩,
    lowBits _ _ (opField_encodeI _ _ _ _ _) (by decide)⟩
theorem xori (rd rs1 : Reg) (imm : BitVec 12) : Statement (.xori rd rs1 imm) :=
  ⟨⟨⟨.XORI, 0x00004013#32, 0x0000707F#32, .t2⟩, by decide, rfl, rfl, encodeI_mask _ _ _ _ _⟩,
    lowBits _ _ (opField_encodeI _ _ _ _ _) (by decide)⟩
theorem ori (rd rs1 : Reg) (imm : BitVec 12) : Statement (.ori rd rs1 imm) :=
  ⟨⟨⟨.ORI, 0x00006013#32, 0x0000707F#32, .t2⟩, by decide, rfl, rfl, encodeI_mask _ _ _ _ _⟩,
    lowBits _ _ (opField_encodeI _ _ _ _ _) (by decide)⟩
theorem andi (rd rs1 : Reg) (imm : BitVec 12) : Statement (.andi rd rs1 imm) :=
  ⟨⟨⟨.ANDI, 0x00007013#32, 0x0000707F#32, .t2⟩, by decide, rfl, rfl, encodeI_mask _ _ _ _ _⟩,
    lowBits _ _ (opField_encodeI _ _ _ _ _) (by decide)⟩
theorem slli (rd rs1 : Reg) (shamt : BitVec 5) : Statement (.slli rd rs1 shamt) :=
  ⟨⟨⟨.SLLI, 0x00001013#32, 0xFE00707F#32, .t2⟩, by decide, rfl, rfl, encodeShift_mask _ _ _ _ _⟩,
    lowBits _ _ (opField_encodeShift _ _ _ _ _) (by decide)⟩
theorem srli (rd rs1 : Reg) (shamt : BitVec 5) : Statement (.srli rd rs1 shamt) :=
  ⟨⟨⟨.SRLI, 0x00005013#32, 0xFE00707F#32, .t2⟩, by decide, rfl, rfl, encodeShift_mask _ _ _ _ _⟩,
    lowBits _ _ (opField_encodeShift _ _ _ _ _) (by decide)⟩
theorem srai (rd rs1 : Reg) (shamt : BitVec 5) : Statement (.srai rd rs1 shamt) :=
  ⟨⟨⟨.SRAI, 0x40005013#32, 0xFE00707F#32, .t2⟩, by decide, rfl, rfl, encodeShift_mask _ _ _ _ _⟩,
    lowBits _ _ (opField_encodeShift _ _ _ _ _) (by decide)⟩
theorem sw (rs2 rs1 : Reg) (imm : BitVec 12) : Statement (.sw rs2 rs1 imm) :=
  ⟨⟨⟨.SW, 0x00002023#32, 0x0000707F#32, .t3⟩, by decide, rfl, rfl, encodeS_mask _ _ _ _⟩,
    lowBits _ _ (opField_encodeS _ _ _ _) (by decide)⟩
theorem add (rd rs1 rs2 : Reg) : Statement (.add rd rs1 rs2) :=
  ⟨⟨⟨.ADD, 0x00000033#32, 0xFE00707F#32, .t3⟩, by decide, rfl, rfl, encodeR_mask _ _ _ _ _⟩,
    lowBits _ _ (opField_encodeR _ _ _ _ _) (by decide)⟩
theorem sub (rd rs1 rs2 : Reg) : Statement (.sub rd rs1 rs2) :=
  ⟨⟨⟨.SUB, 0x40000033#32, 0xFE00707F#32, .t3⟩, by decide, rfl, rfl, encodeR_mask _ _ _ _ _⟩,
    lowBits _ _ (opField_encodeR _ _ _ _ _) (by decide)⟩
theorem slt (rd rs1 rs2 : Reg) : Statement (.slt rd rs1 rs2) :=
  ⟨⟨⟨.SLT, 0x00002033#32, 0xFE00707F#32, .t3⟩, by decide, rfl, rfl, encodeR_mask _ _ _ _ _⟩,
    lowBits _ _ (opField_encodeR _ _ _ _ _) (by decide)⟩
theorem or (rd rs1 rs2 : Reg) : Statement (.or rd rs1 rs2) :=
  ⟨⟨⟨.OR, 0x00006033#32, 0xFE00707F#32, .t3⟩, by decide, rfl, rfl, encodeR_mask _ _ _ _ _⟩,
    lowBits _ _ (opField_encodeR _ _ _ _ _) (by decide)⟩
theorem and (rd rs1 rs2 : Reg) : Statement (.and rd rs1 rs2) :=
  ⟨⟨⟨.AND, 0x00007033#32, 0xFE00707F#32, .t3⟩, by decide, rfl, rfl, encodeR_mask _ _ _ _ _⟩,
    lowBits _ _ (opField_encodeR _ _ _ _ _) (by decide)⟩
theorem beq (rs1 rs2 : Reg) (offset : BitVec 13) : Statement (.beq rs1 rs2 offset) :=
  ⟨⟨⟨.BEQ, 0x00000063#32, 0x0000707F#32, .t3⟩, by decide, rfl, rfl, encodeB_mask _ _ _ _⟩,
    lowBits _ _ (opField_encodeB _ _ _ _) (by decide)⟩

end Sys2Proof.Laws.MatchesRow
end

