-- ==== Sys2Proof/Laws/Step.lean ====
section
/-! SUPPORT. The program image, and everything one step can do. -/

namespace Sys2Proof.Machine

/-- A fetch answers a word exactly where `pc` is the address of that word of the image (R36). -/
theorem State.instrFetch_eq_some (s : State) (w : Word) :
    s.instrFetch = some w ↔ ∃ k, s.pc.toNat = s.config.imemBase.toNat + 4 * k ∧ s.imem[k]? = some w := by
  unfold State.instrFetch State.imageIndex
  split
  · next k hk =>
    split at hk
    · next hc =>
      simp only [Option.some.injEq] at hk
      subst hk
      constructor
      · intro h
        exact ⟨_, by omega, h⟩
      · rintro ⟨k, hk, hw⟩
        have : (s.pc.toNat - s.config.imemBase.toNat) / 4 = k := by omega
        rw [this, hw]
    · cases hk
  · next hk =>
    split at hk
    · cases hk
    · next hc =>
      constructor
      · intro h
        cases h
      · rintro ⟨k, hk, hw⟩
        have : k < s.imem.length := by
          by_contra hge
          rw [List.getElem?_eq_none (by omega)] at hw
          cases hw
        exact absurd ⟨by omega, by omega, by omega⟩ hc

/-- A fetch answers nothing exactly where `pc` is the address of no word of the image (R36). -/
theorem State.instrFetch_eq_none (s : State) :
    s.instrFetch = none ↔ ¬ ∃ k, s.pc.toNat = s.config.imemBase.toNat + 4 * k ∧ k < s.imem.length := by
  constructor
  · rintro h ⟨k, hk, hlt⟩
    have := (s.instrFetch_eq_some s.imem[k]).2 ⟨k, hk, List.getElem?_eq_getElem hlt⟩
    rw [h] at this
    cases this
  · intro h
    by_contra hne
    obtain ⟨w, hw⟩ := Option.ne_none_iff_exists'.1 hne
    obtain ⟨k, hk, hkw⟩ := (s.instrFetch_eq_some w).1 hw
    exact h ⟨k, hk, (List.getElem?_eq_some_iff.1 hkw).1⟩

/-- What one step of a running, accepted machine leaves (R15). -/
inductive Stepped (s : State) : State → Prop where
  | misaligned : s.pc.toNat % 4 ≠ 0 → Stepped s (s.raise (.instructionAddressMisaligned s.pc))
  | ended : s.pc.toNat % 4 = 0 → s.pc = s.endPc → Stepped s s.endRun
  | outside : s.pc.toNat % 4 = 0 → s.instrFetch = none → s.pc ≠ s.endPc →
      Stepped s (s.raise (.instructionAccessFault s.pc))
  | illegal (w : Word) : s.pc.toNat % 4 = 0 → s.pc ≠ s.endPc → s.instrFetch = some w →
      (∀ i, decodeWord w = .ok i → admits s.config.admitted (tierOf i) = false) →
      Stepped s (s.raise (.illegalInstruction w))
  | executed (w : Word) (i : Instr) (t : State) : s.pc.toNat % 4 = 0 → s.pc ≠ s.endPc → s.instrFetch = some w →
      decodeWord w = .ok i → admits s.config.admitted (tierOf i) = true → exec i s = .next t → Stepped s t

/-- Everything a step that answers a next state can do. -/
theorem step_cases (s t : State) (h : step s = .next t) :
    s.status = .running ∧ s.configAccepted = true ∧ Stepped s t := by
  unfold step at h
  cases hs : s.status <;> simp only [hs, reduceCtorEq] at h
  split at h
  · next hc =>
    refine ⟨rfl, hc, ?_⟩
    unfold State.front State.decodeFront at h
    by_cases ha : aligned s.pc 4 = true
    · have ha' : s.pc.toNat % 4 = 0 := by simpa using ha
      simp only [ha, if_true] at h
      by_cases he : s.pc = s.endPc
      · rw [if_pos he] at h
        cases h
        exact .ended ha' he
      rw [if_neg he] at h
      cases hf : s.instrFetch with
      | none =>
        simp only [hf] at h
        cases h
        exact .outside ha' hf he
      | some w =>
        simp only [hf] at h
        cases hd : decodeWord w with
        | error e =>
          simp only [hd] at h
          cases h
          exact .illegal w ha' he hf (fun i hi => by rw [hd] at hi; cases hi)
        | ok i =>
          simp only [hd] at h
          by_cases hadm : admits s.config.admitted (tierOf i) = true
          · simp only [hadm, if_true] at h
            exact .executed w i t ha' he hf hd hadm h
          · simp only [hadm] at h
            cases h
            refine .illegal w ha' he hf (fun j hj => ?_)
            rw [hd] at hj
            cases hj
            simpa using hadm
    · have ha' : s.pc.toNat % 4 ≠ 0 := by simpa using ha
      simp only [ha] at h
      cases h
      exact .misaligned ha'
  · cases h

/-- A running, accepted machine takes every one of those steps. -/
theorem step_of_stepped (s t : State) (hr : s.status = .running) (hc : s.configAccepted = true) (h : Stepped s t) :
    step s = .next t := by
  unfold step
  rw [hr]
  simp only [hc, if_true]
  unfold State.front State.decodeFront
  cases h with
  | misaligned ha =>
    have ha' : aligned s.pc 4 = false := by simpa using ha
    simp [ha']
  | ended ha he =>
    have ha' : aligned s.pc 4 = true := by simpa using ha
    rw [if_pos ha', if_pos he]
  | outside ha hf he =>
    have ha' : aligned s.pc 4 = true := by simpa using ha
    simp [ha', hf, he]
  | illegal w ha he hf hn =>
    have ha' : aligned s.pc 4 = true := by simpa using ha
    rw [if_pos ha', if_neg he]
    simp only [hf]
    cases hd : decodeWord w with
    | error e => rfl
    | ok i => simp [hn i hd]
  | executed w i u ha he hf hd hadm hx =>
    have ha' : aligned s.pc 4 = true := by simpa using ha
    simp [ha', he, hf, hd, hadm, hx]

/-- A running, accepted machine always has a step. -/
theorem exists_stepped (s : State) : ∃ t, Stepped s t := by
  by_cases ha : s.pc.toNat % 4 = 0
  · by_cases he : s.pc = s.endPc
    · exact ⟨_, .ended ha he⟩
    cases hf : s.instrFetch with
    | none => exact ⟨_, .outside ha hf he⟩
    | some w =>
      by_cases hn : ∀ i, decodeWord w = .ok i → admits s.config.admitted (tierOf i) = false
      · exact ⟨_, .illegal w ha he hf hn⟩
      · push Not at hn
        obtain ⟨i, hd, hadm⟩ := hn
        obtain ⟨t, ht⟩ := exec_next i s
        exact ⟨t, .executed w i t ha he hf hd (by simpa using hadm) ht⟩
  · exact ⟨_, .misaligned ha⟩

/-- A step leaves the program image and the configuration alone (R20). -/
theorem Stepped.keeps {s t : State} (h : Stepped s t) : t.imem = s.imem ∧ t.config = s.config := by
  cases h with
  | executed w i t ha he hf hd hadm hx =>
    rcases exec_cases i s t hx with ⟨e, -, rfl⟩ | ⟨-, hc⟩
    · simp
    · exact hc.keeps.2
  | _ => simp

/-- The word placed by `withFetchWord` is the word the next fetch answers (log 18). -/
theorem State.instrFetch_placeWord (s : State) (w : Word) : (s.placeWord w).instrFetch = some w := by
  rw [State.instrFetch_eq_some]
  unfold State.placeWord
  split
  · next k hk =>
    refine ⟨k, ?_⟩
    split at hk
    · cases hk
    unfold State.imageIndex at hk
    split at hk
    · next hc =>
      cases hk
      refine ⟨?_, ?_⟩
      · show s.pc.toNat = s.config.imemBase.toNat + _
        omega
      · simp [hc.2.2]
    · cases hk
  · exact ⟨0, by simp, by simp⟩

/-- The word placed by `withFetchWord` does not stand at `END_PC`, so the next step does not end the run (log 18). -/
theorem State.placeWord_pc_ne_endPc (s : State) (w : Word) : (s.placeWord w).pc ≠ (s.placeWord w).endPc := by
  unfold State.placeWord
  split
  · next k hk =>
    split at hk
    · cases hk
    · next he => simpa [State.endPc] using he
  · simp only [State.endPc, List.length_singleton]
    intro h
    have := congrArg BitVec.toNat h
    rw [BitVec.toNat_add] at this
    simp only [BitVec.toNat_ofNat] at this
    omega

@[simp] theorem State.placeWord_status (s : State) (w : Word) : (s.placeWord w).status = .running := by
  unfold State.placeWord; split <;> rfl

@[simp] theorem State.placeWord_mem (s : State) (w : Word) : (s.placeWord w).mem = s.mem := by
  unfold State.placeWord; split <;> rfl

@[simp] theorem State.placeWord_regs (s : State) (w : Word) : (s.placeWord w).regs = s.regs := by
  unfold State.placeWord; split <;> rfl

end Sys2Proof.Machine
end

