-- ==== Sys2Proof/Tests/Slice0.lean ====
section
/-! SUPPORT. The model's own tests: well-formedness, decoding, one step of each instruction, and for every statement with
hypotheses a state that meets them. Expected values are those of spec/95_test_vectors.md, in the configuration of its head,
unless a comment names another rule. -/

namespace Sys2Proof.Tests

open Sys2Proof.Machine Sys2Proof.Claim

/-! ### Small states -/

/-- A machine at 0x1000 with the image, the registers and the data bytes given. -/
def machine (image : List Word) (regs : List (Reg × Word)) (mem : Memory) : State :=
  regs.foldl (fun s p => s.writeReg p.1 p.2)
    (State.launch Config.testVectors image (Vector.replicate 31 0#32) mem)

/-- What `f` sees of a next state, if there is one. -/
def seen {α : Type} (f : State → α) : Result → Option α
  | .next t => some (f t)
  | .fault _ => none
  | .refused _ => none

/-- What `f` sees after one step. -/
def after {α : Type} (f : State → α) (s : State) : Option α := seen f (step s)

/-- A register, the pc and the status. -/
def look (r : Reg) (t : State) : Word × Word × Status := (t.readReg r, t.pc, t.status)

/-- The data memory of section 3: word 0x12345678 at 0x0FC, 0x80FF7F01 at 0x100, 0xCAFEF00D at 0x104. -/
def section3 : Memory :=
  [(0xFC, 0x78#8), (0xFD, 0x56#8), (0xFE, 0x34#8), (0xFF, 0x12#8)] ++
  [(0x100, 0x01#8), (0x101, 0x7F#8), (0x102, 0xFF#8), (0x103, 0x80#8)] ++
  [(0x104, 0x0D#8), (0x105, 0xF0#8), (0x106, 0xFE#8), (0x107, 0xCA#8)]

/-- Section 3: one load with x10 = 0x100. -/
def loadAt (w : Word) : State := machine [w] [(10, 0x100#32)] section3

/-- Sections 4 and 5: one instruction on x6. -/
def onX6 (w a : Word) : State := machine [w] [(6, a)] []

/-- Section 6: one instruction on x6 and x7. -/
def onX6X7 (w a b : Word) : State := machine [w] [(6, a), (7, b)] []

/-! ### Well-formedness: the one check, with terms it refuses (R64, R65) -/

theorem test_wellFormed_refuses_odd_offsets :
    (Instr.beq 0 0 1#13).wellFormed = false ∧ (Instr.beq 5 6 0x0FFF#13).wellFormed = false := by decide

theorem test_wellFormed_admits_extreme_offsets :
    (Instr.beq 1 2 4094#13).wellFormed = true ∧ (Instr.beq 1 2 (-4096#13)).wellFormed = true := by decide

/-! ### Decoding: the words of section 2 -/

theorem test_decode_loads :
    decodeWord 0xFFC4A303#32 = .ok (.lw 6 9 (-4#12)) ∧
    decodeWord 0x00150283#32 = .ok (.lb 5 10 1#12) ∧
    decodeWord 0x00251283#32 = .ok (.lh 5 10 2#12) ∧
    decodeWord 0x00354283#32 = .ok (.lbu 5 10 3#12) ∧
    decodeWord 0x00255283#32 = .ok (.lhu 5 10 2#12) ∧
    decodeWord 0x800FAF83#32 = .ok (.lw 31 31 (-2048#12)) ∧
    decodeWord 0x7FF52283#32 = .ok (.lw 5 10 2047#12) := by decide

theorem test_decode_register_immediates :
    decodeWord 0x00000013#32 = .ok (.addi 0 0 0#12) ∧
    decodeWord 0x7FF00093#32 = .ok (.addi 1 0 2047#12) ∧
    decodeWord 0x80000093#32 = .ok (.addi 1 0 (-2048#12)) ∧
    decodeWord 0xFFF32293#32 = .ok (.slti 5 6 (-1#12)) ∧
    decodeWord 0xFFF33293#32 = .ok (.sltiu 5 6 (-1#12)) ∧
    decodeWord 0xFFF34293#32 = .ok (.xori 5 6 (-1#12)) ∧
    decodeWord 0x0F036293#32 = .ok (.ori 5 6 240#12) ∧
    decodeWord 0x0FF37293#32 = .ok (.andi 5 6 255#12) := by decide

theorem test_decode_shifts :
    decodeWord 0x00431293#32 = .ok (.slli 5 6 4#5) ∧
    decodeWord 0x00435293#32 = .ok (.srli 5 6 4#5) ∧
    decodeWord 0x40435293#32 = .ok (.srai 5 6 4#5) ∧
    decodeWord 0x01F09093#32 = .ok (.slli 1 1 31#5) ∧
    decodeWord 0x41F0D093#32 = .ok (.srai 1 1 31#5) := by decide

theorem test_decode_stores :
    decodeWord 0x0064A423#32 = .ok (.sw 6 9 8#12) ∧
    decodeWord 0xFE712E23#32 = .ok (.sw 7 2 (-4#12)) ∧
    decodeWord 0x7FFFAFA3#32 = .ok (.sw 31 31 2047#12) := by decide

theorem test_decode_register_operations :
    decodeWord 0x007302B3#32 = .ok (.add 5 6 7) ∧
    decodeWord 0x407302B3#32 = .ok (.sub 5 6 7) ∧
    decodeWord 0x007322B3#32 = .ok (.slt 5 6 7) ∧
    decodeWord 0x007362B3#32 = .ok (.or 5 6 7) ∧
    decodeWord 0x007372B3#32 = .ok (.and 5 6 7) := by decide

theorem test_decode_branches :
    decodeWord 0x00628463#32 = .ok (.beq 5 6 8#13) ∧
    decodeWord 0xFE000EE3#32 = .ok (.beq 0 0 (-4#13)) ∧
    decodeWord 0x00000063#32 = .ok (.beq 0 0 0#13) ∧
    decodeWord 0x7E208FE3#32 = .ok (.beq 1 2 4094#13) ∧
    decodeWord 0x80208063#32 = .ok (.beq 1 2 (-4096#13)) ∧
    decodeWord 0x00628363#32 = .ok (.beq 5 6 6#13) := by decide

/-- The source's own word (section 1.1), field by field. -/
theorem test_fields_of_the_worked_example :
    immIField 0xFFC4A303#32 = 0xFFC#12 ∧ rs1Field 0xFFC4A303#32 = 9 ∧ funct3Field 0xFFC4A303#32 = 0b010#3 ∧
    rdField 0xFFC4A303#32 = 6 ∧ opField 0xFFC4A303#32 = 0b0000011#7 := by decide

/-- The illegal words of section 2, with the name each is rejected by. -/
theorem test_decode_rejects_loads_and_shifts :
    decodeWord 0x00003003#32 = .error (.loadWidthNotListed 0b011#3) ∧
    decodeWord 0x00006003#32 = .error (.loadWidthNotListed 0b110#3) ∧
    decodeWord 0x00007003#32 = .error (.loadWidthNotListed 0b111#3) ∧
    decodeWord 0x02001013#32 = .error (.shiftConstantNotListed 0b001#3 0b0000001#7) ∧
    decodeWord 0x40001013#32 = .error (.shiftConstantNotListed 0b001#3 0b0100000#7) ∧
    decodeWord 0x20005013#32 = .error (.shiftConstantNotListed 0b101#3 0b0010000#7) := by decide

theorem test_decode_rejects_stores_operations_branches :
    decodeWord 0x00000023#32 = .error (.storeWidthNotListed 0b000#3) ∧
    decodeWord 0x00001023#32 = .error (.storeWidthNotListed 0b001#3) ∧
    decodeWord 0x02000033#32 = .error (.registerOperationNotListed 0b0000001#7 0b000#3) ∧
    decodeWord 0x00001033#32 = .error (.registerOperationNotListed 0b0000000#7 0b001#3) ∧
    decodeWord 0x40002033#32 = .error (.registerOperationNotListed 0b0100000#7 0b010#3) ∧
    decodeWord 0x00001063#32 = .error (.branchConditionNotListed 0b001#3) := by decide

theorem test_decode_rejects_other_opcodes :
    decodeWord 0x00000000#32 = .error .notThirtyTwoBit ∧ decodeWord 0x00000001#32 = .error .notThirtyTwoBit ∧
    decodeWord 0xFFFFFFFF#32 = .error (.opcodeNotListed 0b1111111#7) ∧
    decodeWord 0x00000067#32 = .error (.opcodeNotListed 0b1100111#7) ∧
    decodeWord 0x0000006F#32 = .error (.opcodeNotListed 0b1101111#7) ∧
    decodeWord 0x00000037#32 = .error (.opcodeNotListed 0b0110111#7) ∧
    decodeWord 0x00000017#32 = .error (.opcodeNotListed 0b0010111#7) ∧
    decodeWord 0x0000000F#32 = .error (.opcodeNotListed 0b0001111#7) := by decide

theorem test_decode_rejects_system_words :
    decodeWord 0x00000073#32 = .error (.opcodeNotListed 0b1110011#7) ∧
    decodeWord 0x00100073#32 = .error (.opcodeNotListed 0b1110011#7) ∧
    decodeWord 0x30200073#32 = .error (.opcodeNotListed 0b1110011#7) ∧
    decodeWord 0x10500073#32 = .error (.opcodeNotListed 0b1110011#7) := by decide

/-- R30, R70: the bytes of 0xFFC4A303 as memory holds them; three bytes are no instruction. -/
theorem test_decode_bytes :
    decode .little [0x03#8, 0xA3#8, 0xC4#8, 0xFF#8, 0x13#8] = .ok (.lw 6 9 (-4#12), [0x13#8]) ∧
    decode .big [0xFF#8, 0xC4#8, 0xA3#8, 0x03#8] = .ok (.lw 6 9 (-4#12), []) ∧
    decode .little [0x03#8, 0xA3#8, 0xC4#8] = .error .truncated := by decide

theorem test_decodeTableWord :
    decodeTableWord 32 0x00000033 = some (.add 0 0 0) ∧ decodeTableWord 32 0x02000033 = none := by decide

theorem test_withFetchWord_runs_the_word :
    after (look 1) (State.reset.withFetchWord 32 0x7FF00093) = some (0x7FF#32, 0x1004#32, .running) := by decide

/-- Section 1.3 as one step, and the end of that run (section 9.1). -/
theorem test_worked_example_runs :
    after (look 6) (machine [0xFFC4A303#32] [(9, 0x20#32)] [(0x1C, 0x20#8)]) = some (0x20#32, 0x1004#32, .running) ∧
    after (look 6) ((machine [0xFFC4A303#32] [(6, 0x20#32)] []).jump 0x1004#32) = some (0x20#32, 0x1004#32, .ended) := by
  decide

/-! ### One step of each instruction -/

theorem test_lb :
    after (look 5) (loadAt 0x00250283#32) = some (0xFFFFFFFF#32, 0x1004#32, .running) ∧
    after (look 5) (loadAt 0x00150283#32) = some (0x0000007F#32, 0x1004#32, .running) ∧
    after (look 5) (loadAt 0xFFF50283#32) = some (0x00000012#32, 0x1004#32, .running) := by decide

theorem test_lb_wraps_and_faults :
    after (look 5) (machine [0x00148283#32] [(9, 0xFFFFFFFF#32)] [(0, 0x80#8)]) =
      some (0xFFFFFF80#32, 0x1004#32, .running) ∧
    after (look 5) (machine [0x00148283#32] [(9, 0xFFF#32)] []) =
      some (0#32, 0x1000#32, .faulted (.loadAccessFault 0x1000#32)) := by decide

theorem test_lh :
    after (look 5) (loadAt 0x00051283#32) = some (0x00007F01#32, 0x1004#32, .running) ∧
    after (look 5) (loadAt 0x00251283#32) = some (0xFFFF80FF#32, 0x1004#32, .running) := by decide

theorem test_lh_misaligned :
    after (look 5) (loadAt 0x00151283#32) =
      some (0#32, 0x1000#32, .faulted (.loadAddressMisaligned 0x101#32)) := by decide

theorem test_lw :
    after (look 5) (loadAt 0x00052283#32) = some (0x80FF7F01#32, 0x1004#32, .running) ∧
    after (look 5) (loadAt 0xFFC52283#32) = some (0x12345678#32, 0x1004#32, .running) ∧
    after (look 5) (loadAt 0x00452283#32) = some (0xCAFEF00D#32, 0x1004#32, .running) := by decide

theorem test_lw_faults :
    after (look 5) (loadAt 0x00252283#32) = some (0#32, 0x1000#32, .faulted (.loadAddressMisaligned 0x102#32)) ∧
    after (look 5) (loadAt 0x7FF52283#32) = some (0#32, 0x1000#32, .faulted (.loadAddressMisaligned 0x8FF#32)) ∧
    after (look 5) (loadAt 0x80052283#32) = some (0#32, 0x1000#32, .faulted (.loadAccessFault 0xFFFFF900#32)) := by decide

theorem test_lbu :
    after (look 5) (loadAt 0x00254283#32) = some (0x000000FF#32, 0x1004#32, .running) ∧
    after (look 5) (loadAt 0x00354283#32) = some (0x00000080#32, 0x1004#32, .running) ∧
    after (look 5) (loadAt 0x00054283#32) = some (0x00000001#32, 0x1004#32, .running) := by decide

theorem test_lhu :
    after (look 5) (loadAt 0x00055283#32) = some (0x00007F01#32, 0x1004#32, .running) ∧
    after (look 5) (loadAt 0x00255283#32) = some (0x000080FF#32, 0x1004#32, .running) := by decide

theorem test_lhu_misaligned :
    after (look 5) (loadAt 0x00355283#32) =
      some (0#32, 0x1000#32, .faulted (.loadAddressMisaligned 0x103#32)) := by decide

theorem test_load_into_its_base_and_into_x0 :
    after (look 9) (machine [0x0004A483#32] [(9, 0xFC#32)] section3) = some (0x12345678#32, 0x1004#32, .running) ∧
    after (look 0) (machine [0x0044A003#32] [(9, 0xFC#32)] section3) = some (0#32, 0x1004#32, .running) ∧
    after (look 0) (machine [0x0044A003#32] [(9, 0xFE#32)] section3) =
      some (0#32, 0x1000#32, .faulted (.loadAddressMisaligned 0x102#32)) := by decide

theorem test_addi :
    after (look 5) (onX6 0x00130293#32 0x7FFFFFFF#32) = some (0x80000000#32, 0x1004#32, .running) ∧
    after (look 5) (onX6 0x80030293#32 0x00000000#32) = some (0xFFFFF800#32, 0x1004#32, .running) := by decide

theorem test_slti :
    after (look 5) (onX6 0xFFF32293#32 0x7FFFFFFF#32) = some (0x00000000#32, 0x1004#32, .running) ∧
    after (look 5) (onX6 0x80132293#32 0xFFFFF800#32) = some (0x00000001#32, 0x1004#32, .running) := by decide

theorem test_sltiu :
    after (look 5) (onX6 0xFFF33293#32 0xFFFFFFFE#32) = some (0x00000001#32, 0x1004#32, .running) ∧
    after (look 5) (onX6 0x80033293#32 0xFFFFF800#32) = some (0x00000000#32, 0x1004#32, .running) := by decide

theorem test_xori :
    after (look 5) (onX6 0x7FF34293#32 0x0000FFFF#32) = some (0x0000F800#32, 0x1004#32, .running) ∧
    after (look 5) (onX6 0x80034293#32 0x0000FFFF#32) = some (0xFFFF07FF#32, 0x1004#32, .running) := by decide

theorem test_ori :
    after (look 5) (onX6 0x80036293#32 0x00000000#32) = some (0xFFFFF800#32, 0x1004#32, .running) ∧
    after (look 5) (onX6 0x67836293#32 0x12345000#32) = some (0x12345678#32, 0x1004#32, .running) := by decide

theorem test_andi :
    after (look 5) (onX6 0x80037293#32 0xFFFFFFFF#32) = some (0xFFFFF800#32, 0x1004#32, .running) ∧
    after (look 5) (onX6 0x0F037293#32 0xDEADBEEF#32) = some (0x000000E0#32, 0x1004#32, .running) := by decide

theorem test_slli :
    after (look 5) (onX6 0x01F31293#32 0x00000002#32) = some (0x00000000#32, 0x1004#32, .running) ∧
    after (look 5) (onX6 0x01031293#32 0xFFFFFFFF#32) = some (0xFFFF0000#32, 0x1004#32, .running) := by decide

theorem test_srli :
    after (look 5) (onX6 0x01F35293#32 0x80000000#32) = some (0x00000001#32, 0x1004#32, .running) ∧
    after (look 5) (onX6 0x01035293#32 0xFFFFFFFF#32) = some (0x0000FFFF#32, 0x1004#32, .running) := by decide

theorem test_srai :
    after (look 5) (onX6 0x40135293#32 0x80000000#32) = some (0xC0000000#32, 0x1004#32, .running) ∧
    after (look 5) (onX6 0x40235293#32 0xFFFFFFF1#32) = some (0xFFFFFFFC#32, 0x1004#32, .running) ∧
    after (look 5) (onX6 0x41F35293#32 0x7FFFFFFF#32) = some (0x00000000#32, 0x1004#32, .running) := by decide

theorem test_addi_same_register_and_x0 :
    after (look 5) (machine [0x00128293#32] [(5, 7#32)] []) = some (8#32, 0x1004#32, .running) ∧
    after (look 0) (machine [0x00530013#32] [(6, 9#32)] []) = some (0#32, 0x1004#32, .running) := by decide

theorem test_add :
    after (look 5) (onX6X7 0x007302B3#32 0x7FFFFFFF#32 0x00000001#32) = some (0x80000000#32, 0x1004#32, .running) ∧
    after (look 5) (onX6X7 0x007302B3#32 0xFFFFFFFF#32 0xFFFFFFFF#32) =
      some (0xFFFFFFFE#32, 0x1004#32, .running) := by decide

theorem test_sub :
    after (look 5) (onX6X7 0x407302B3#32 0x00000000#32 0x00000001#32) = some (0xFFFFFFFF#32, 0x1004#32, .running) ∧
    after (look 5) (onX6X7 0x407302B3#32 0x80000000#32 0x00000001#32) =
      some (0x7FFFFFFF#32, 0x1004#32, .running) := by decide

theorem test_slt :
    after (look 5) (onX6X7 0x007322B3#32 0x80000000#32 0x00000001#32) = some (0x00000001#32, 0x1004#32, .running) ∧
    after (look 5) (onX6X7 0x007322B3#32 0x7FFFFFFF#32 0xFFFFFFFF#32) =
      some (0x00000000#32, 0x1004#32, .running) := by decide

theorem test_or :
    after (look 5) (onX6X7 0x007362B3#32 0xF0F0F0F0#32 0x0F0F0F0F#32) =
      some (0xFFFFFFFF#32, 0x1004#32, .running) := by decide

theorem test_and :
    after (look 5) (onX6X7 0x007372B3#32 0xFFFFFFFF#32 0x12345678#32) = some (0x12345678#32, 0x1004#32, .running) ∧
    after (look 5) (onX6X7 0x007372B3#32 0xF0F0F0F0#32 0x0F0F0F0F#32) =
      some (0x00000000#32, 0x1004#32, .running) := by decide

theorem test_sw :
    after (fun t => (t.mem, t.pc)) (machine [0x0064A423#32] [(9, 0x20#32), (6, 0xAABBCCDD#32)] []) =
      some ([(0x28, 0xDD#8), (0x29, 0xCC#8), (0x2A, 0xBB#8), (0x2B, 0xAA#8)], 0x1004#32) ∧
    after (fun t => (t.mem, t.pc)) (machine [0x7E10AE23#32] [(1, 0x7FC#32)] []) =
      some ([(0xFF8, 0xFC#8), (0xFF9, 0x07#8)], 0x1004#32) := by decide

theorem test_sw_faults :
    after (look 0) (machine [0x00002123#32] [] []) = some (0#32, 0x1000#32, .faulted (.storeAddressMisaligned 2#32)) ∧
    after (look 0) (machine [0x0064A223#32] [(9, 0xFFC#32)] []) =
      some (0#32, 0x1000#32, .faulted (.storeAccessFault 0x1000#32)) := by decide

theorem test_beq :
    after (look 0) (machine [0x00628463#32] [(5, 7#32), (6, 7#32)] []) = some (0#32, 0x1008#32, .running) ∧
    after (look 0) (machine [0x00628463#32] [(5, 7#32), (6, 8#32)] []) = some (0#32, 0x1004#32, .running) ∧
    after (look 0) (machine [0x80208063#32] [] []) = some (0#32, 0#32, .running) ∧
    after (look 0) ((machine [0#32, 0#32, 0xFE000EE3#32] [] []).jump 0x1008#32) =
      some (0#32, 0x1004#32, .running) := by decide

theorem test_beq_misaligned_target :
    after (look 0) (machine [0x00628363#32] [(5, 7#32), (6, 7#32)] []) =
      some (0#32, 0x1000#32, .faulted (.instructionAddressMisaligned 0x1006#32)) ∧
    after (look 0) (machine [0x00628363#32] [(5, 7#32), (6, 8#32)] []) = some (0#32, 0x1004#32, .running) := by decide

/-- D6: the parameter's other byte order puts the first byte highest (log 9). -/
theorem test_big_endian_store :
    after (fun t => t.mem.byteAt 0x28)
      { machine [0x0064A423#32] [(9, 0x20#32), (6, 0xAABBCCDD#32)] [] with
        config := { Config.testVectors with byteOrder := .big } } = some 0xAA#8 := by decide

/-- D10: with the switch on, a store over the image's addresses faults (log 11). -/
theorem test_store_to_text_faults :
    after (look 0) { machine [0x0064A423#32] [(9, 0xFF8#32)] [] with
        config := { Config.testVectors with dmemSize := 0x2000, faultOnStoreToText := true } } =
      some (0#32, 0x1000#32, .faulted (.storeAccessFault 0x1000#32)) ∧
    after (look 0) { machine [0x0064A423#32] [(9, 0xFF8#32)] [] with
        config := { Config.testVectors with dmemSize := 0x2000 } } = some (0#32, 0x1004#32, .running) := by decide

/-! ### The control unit and the datapath (sections 1.3 and 1.4) -/

/-- The controls of the `lw` row with the don't-cares it has none of. -/
def lwControls : Controls := ⟨true, 0b00#2, true, false, true, false, 0b00#2⟩

/-- R131, column 3: the signals of the simulated `lw x6, -4(x9)`. -/
theorem test_signals_of_the_worked_example :
    let g := signals lwControls 0b000#3 0xFFC4A303#32 (machine [0xFFC4A303#32] [(9, 0x20#32)] [(0x1C, 0x20#8)])
    g.immExtOut = 0xFFFFFFFC#32 ∧ g.aIn = 0x20#32 ∧ g.bIn = 0xFFFFFFFC#32 ∧ g.resultO = 0x1C#32 ∧
    g.aAndB = 0x20#32 ∧ g.aOrB = 0xFFFFFFFC#32 ∧ g.notB = 3#32 ∧ g.mux1 = 0xFFFFFFFC#32 ∧ g.mux2 = 0x1C#32 ∧
    g.sltInstruction = 0#32 ∧ g.a1 = 9#5 ∧ g.a3 = 6#5 ∧ g.wd3 = 0x20#32 ∧ g.rd1 = 0x20#32 := by decide

/-- R131, column 1: every bus 0 gives Z = 1 and N = V = C = 0. -/
theorem test_flags_on_zero_operands :
    flagZ 0b000#3 0#32 0#32 = true ∧ flagN 0b000#3 0#32 0#32 = false ∧ flagV 0b000#3 0#32 0#32 = false ∧
    flagC 0b000#3 0#32 0#32 = false := by decide

/-! ### Assembly names (R24, R71, R72) -/

theorem test_register_names :
    regOfName "sp" = some 2 ∧ regOfName "fp" = some 8 ∧ regOfName "s0" = some 8 ∧ regOfName "t6" = some 31 ∧
    regOfName "x17" = some 17 ∧ regOfName "x32" = none := by decide

theorem test_assembly_text :
    assemblyText (.lw 6 9 (-4#12)) = "lw x6, -4(x9)" ∧ assemblyText (.beq 5 6 8#13) = "beq x5, x6, +8" ∧
    encode (expandPseudo .nop) = 0x00000013#32 := by decide

/-! ### Witnesses: for every statement with hypotheses, states that meet them -/

/-- No word of the image stands at `pc` (used to meet that hypothesis on a concrete state). -/
theorem outside_of_fetch {s : State} (h : s.instrFetch = none) : ¬ ∃ k w, atWord s k w := by
  rintro ⟨k, w, hk, hw⟩
  have := (s.instrFetch_eq_some w).2 ⟨k, hk, hw⟩
  rw [h] at this
  cases this

theorem of_seen {α : Type} {f : State → α} {v : α} {r : Result} (h : seen f r = some v) : ∃ t, r = .next t ∧ f t = v := by
  cases r with
  | next t => exact ⟨t, rfl, by simpa [seen] using h⟩
  | fault _ => cases h
  | refused _ => cases h

/-- The state of the witnesses about one instruction: x5 = x6 = 7, x7 = 8, x9 = 0xFFC, x10 = 0x100. -/
def sample : State :=
  machine [0x00000013#32, 0x00000013#32] [(5, 7#32), (6, 7#32), (7, 8#32), (9, 0xFFC#32), (10, 0x100#32)] section3

/-- `sample` with the word `w` at its pc. -/
def sampleOf (w : Word) : State := { sample with imem := [w, 0x00000013#32] }

/-- The last word of the image runs too. -/
theorem witness_StepRunsTheFetchedInstruction :
    (let s := sampleOf 0xFFC4A303#32
     s.status = .running ∧ s.configAccepted = true ∧ (s.pc.toNat = s.config.imemBase.toNat + 4 * 0 ∧
      s.imem[0]? = some 0xFFC4A303#32) ∧ s.pc.toNat ≠ endAddress s ∧ decodeWord 0xFFC4A303#32 = .ok (.lw 6 9 (-4#12)) ∧
      admits s.config.admitted (tierOf (.lw 6 9 (-4#12))) = true) ∧
    (let s := sample.jump 0x1004#32
     s.status = .running ∧ s.configAccepted = true ∧ (s.pc.toNat = s.config.imemBase.toNat + 4 * 1 ∧
      s.imem[1]? = some 0x00000013#32) ∧ s.pc.toNat ≠ endAddress s ∧ decodeWord 0x00000013#32 = .ok (.addi 0 0 0#12) ∧
      admits s.config.admitted (tierOf (.addi 0 0 0#12)) = true) := by decide

theorem witness_DecoderIsTheOpcodeMap :
    decodeWord 0x41F0D093#32 = .ok (.srai 1 1 31#5) ∧
    (∃ row ∈ opcodeMap, 0x41F0D093#32 &&& row.mask = row.pattern ∧ row.mnemonic = .SRAI) := by decide

theorem witness_DecodeOfEncodeIsTheInstruction :
    (Instr.beq 31 31 4094#13).wellFormed = true ∧ (Instr.beq 0 0 (-4096#13)).wellFormed = true ∧
    (Instr.sw 31 31 2047#12).wellFormed = true := by decide

theorem witness_EncodeOfDecodeIsTheWord :
    decodeWord 0x80208063#32 = .ok (.beq 1 2 (-4096#13)) ∧ decodeWord 0x7FFFAFA3#32 = .ok (.sw 31 31 2047#12) := by decide

/-- One word for each named case after the first two, which are words themselves. -/
theorem witness_NamedIllegalWordsAreRejected :
    ((0x00006003#32).extractLsb' 0 7 = 0b0000011#7 ∧ (0x00006003#32).extractLsb' 12 3 ∈ [0b011#3, 0b110#3, 0b111#3]) ∧
    ((0x02001013#32).extractLsb' 0 7 = 0b0010011#7 ∧ (0x02001013#32).extractLsb' 12 3 = 0b001#3 ∧
      (0x02001013#32).extractLsb' 25 7 ≠ 0#7) ∧
    ((0x20005013#32).extractLsb' 0 7 = 0b0010011#7 ∧ (0x20005013#32).extractLsb' 12 3 = 0b101#3 ∧
      (0x20005013#32).extractLsb' 25 7 ∉ [0#7, 0b0100000#7]) ∧
    ((0x00001023#32).extractLsb' 0 7 = 0b0100011#7 ∧ (0x00001023#32).extractLsb' 12 3 ≠ 0b010#3) ∧
    ((0x00001033#32).extractLsb' 0 7 = 0b0110011#7 ∧
      (0x00001033#32).extractLsb' 12 3 ∈ [0b001#3, 0b011#3, 0b100#3, 0b101#3]) ∧
    ((0x02000033#32).extractLsb' 0 7 = 0b0110011#7 ∧ (0x02000033#32).extractLsb' 25 7 ∉ [0#7, 0b0100000#7]) ∧
    ((0x40002033#32).extractLsb' 0 7 = 0b0110011#7 ∧ (0x40002033#32).extractLsb' 25 7 = 0b0100000#7 ∧
      (0x40002033#32).extractLsb' 12 3 ≠ 0b000#3) ∧
    ((0x00001063#32).extractLsb' 0 7 = 0b1100011#7 ∧ (0x00001063#32).extractLsb' 12 3 ≠ 0b000#3) ∧
    (0x0000006F#32).extractLsb' 0 7 ∈ [0b1100111#7, 0b1101111#7, 0b0110111#7, 0b0010111#7, 0b0001111#7, 0b1110011#7] ∧
    (0x00000001#32).extractLsb' 0 2 ≠ 0b11#2 := by decide

/-- The word of no row; the word of a row that ADMIT = T1 excludes. -/
theorem witness_IllegalWordRaises :
    (let s := sampleOf 0#32
     s.status = .running ∧ s.configAccepted = true ∧ (s.pc.toNat = s.config.imemBase.toNat + 4 * 0 ∧ s.imem[0]? = some 0#32) ∧
      s.pc.toNat ≠ endAddress s ∧
      ∀ row ∈ opcodeMap, 0#32 &&& row.mask = row.pattern → admits s.config.admitted row.tier = false) ∧
    (let s := { sample with config := { Config.testVectors with admitted := .t1 } }
     s.status = .running ∧ s.configAccepted = true ∧ (s.pc.toNat = s.config.imemBase.toNat + 4 * 0 ∧
      s.imem[0]? = some 0x00000013#32) ∧ s.pc.toNat ≠ endAddress s ∧
      ∀ row ∈ opcodeMap, 0x00000013#32 &&& row.mask = row.pattern → admits s.config.admitted row.tier = false) := by decide

theorem witness_MisalignedPcRaises :
    let s := sample.jump 0x1002#32
    s.status = .running ∧ s.configAccepted = true ∧ s.pc.toNat % 4 ≠ 0 := by decide

/-- An image that ends at 2^32: END_PC is 0. -/
def lastWord : State :=
  { sample with imem := [0x00000013#32], config := { Config.testVectors with imemBase := 0xFFFFFFFC#32 }, pc := 0#32 }

theorem witness_OutsideTheImageEndsOrRaises :
    (let s := sample.jump 0x1008#32
     s.status = .running ∧ s.configAccepted = true ∧ s.pc.toNat = endAddress s) ∧
    (let s := lastWord
     s.status = .running ∧ s.configAccepted = true ∧ s.pc.toNat = endAddress s) ∧
    (let s := sample.jump 0x0FFC#32
     s.status = .running ∧ s.configAccepted = true ∧ s.pc.toNat % 4 = 0 ∧ s.instrFetch = none ∧
      s.pc.toNat ≠ endAddress s) := by decide

/-- `instrFetch = none` is that statement's hypothesis about the image. -/
theorem witness_OutsideTheImageEndsOrRaises_image : ¬ ∃ k w, atWord (sample.jump 0x0FFC#32) k w :=
  outside_of_fetch (by decide)

/-- R205: an image of all 2^32 bytes has END_PC = 0, and the run ends there although a word stands there (log 7). -/
theorem test_full_image_ends_at_zero (image : List Word) (h : image.length = 2 ^ 30) :
    let s := State.launch { Config.testVectors with imemBase := 0#32, resetPc := 0#32 } image (Vector.replicate 31 0#32) []
    step s = .next s.endRun := by
  intro s
  refine step_of_stepped s _ rfl ?_ (.ended rfl ?_)
  · simp [s, State.configAccepted, State.launch, Config.testVectors, h]
  · simp [s, State.endPc, State.launch, h]

/-- There is such an image. -/
theorem witness_full_image : (List.replicate (2 ^ 30) 0x00000013#32).length = 2 ^ 30 := List.length_replicate

/-- One state for each clause of R39, just past its bound. -/
theorem witness_UnacceptableMapIsRefused :
    (let s := { sample with config := { Config.testVectors with imemBase := 0x1002#32 } }
     s.status = .running ∧ s.config.imemBase.toNat % 4 ≠ 0) ∧
    (let s := { sample with config := { Config.testVectors with imemBase := 0xFFFFFFFC#32 } }
     s.status = .running ∧ 2 ^ 32 < s.config.imemBase.toNat + 4 * s.imem.length) ∧
    (let s := { sample with config := { Config.testVectors with dmemBase := 0xFFFFFFFF#32, dmemSize := 2 } }
     s.status = .running ∧ 2 ^ 32 < s.config.dmemBase.toNat + s.config.dmemSize) := by decide

theorem inv_of_running {s : State} (h1 : s.configAccepted = true) (h2 : s.mem.wf)
    (h3 : ∀ c ∈ s.mem, s.config.dmemBase.toNat ≤ c.1 ∧ c.1 < s.config.dmemBase.toNat + s.config.dmemSize)
    (h4 : s.pc.toNat % 4 = 0) (h5 : s.status = .running) : s.Inv :=
  ⟨h1, h2, h3, h4, fun h => (by rw [h5] at h; cases h), fun e h => (by rw [h5] at h; cases h)⟩

/-- A step that stores, one that raises, one that ends the run. -/
theorem witness_StepKeepsTheInvariant :
    (sampleOf 0x0064A023#32).Inv ∧ (∃ t, step (sampleOf 0x0064A023#32) = .next t ∧ t.mem.byteAt 0xFFC = 7#8) ∧
    (sampleOf 0x0044A283#32).Inv ∧
      (∃ t, step (sampleOf 0x0044A283#32) = .next t ∧ t.status = .faulted (.loadAccessFault 0x1000#32)) ∧
    (sample.jump 0x1008#32).Inv ∧ (∃ t, step (sample.jump 0x1008#32) = .next t ∧ t.status = .ended) :=
  ⟨inv_of_running (by decide) (by decide) (by decide) (by decide) (by decide), of_seen (by decide),
    inv_of_running (by decide) (by decide) (by decide) (by decide) (by decide), of_seen (by decide),
    inv_of_running (by decide) (by decide) (by decide) (by decide) (by decide), of_seen (by decide)⟩

theorem witness_OnlyARunningMachineSteps :
    sample.configAccepted = true ∧ sample.status = .running ∧ sample.endRun.status ≠ .running ∧
    (sample.raise (.illegalInstruction 0#32)).status ≠ .running := by decide

theorem witness_RaisingWritesNothing :
    (∃ t, step (sampleOf 0#32) = .next t ∧ t.status = .faulted (.illegalInstruction 0#32)) ∧
    (sample.raise (.illegalInstruction 0#32)).status = .faulted (.illegalInstruction 0#32) :=
  ⟨of_seen (by decide), rfl⟩

/-- A step at END_PC and a step elsewhere. -/
theorem witness_RunEndsOnlyAtEndPc :
    (∃ t, step lastWord = .next t ∧ t.status = .ended) ∧ ∃ t, step sample = .next t ∧ t.status = .running :=
  ⟨of_seen (by decide), of_seen (by decide)⟩

theorem witness_ImageAndConfigurationAreConstant : ∃ t, step (sampleOf 0x0064A023#32) = .next t ∧ t.pc = 0x1004#32 :=
  of_seen (by decide)

/-- The SW of the last word of data memory, and a step that is no SW. -/
theorem witness_OnlySwWritesDataMemory :
    (∃ t, step (sampleOf 0x0064A023#32) = .next t ∧ t.mem.byteAt 0xFFC = 7#8) ∧
    ∃ t, step sample = .next t ∧ t.mem = section3 :=
  ⟨of_seen (by decide), of_seen (by decide)⟩

/-- A taken BEQ, one not taken, another instruction. -/
theorem witness_PcAdvancesByFourOrBranches :
    (∃ t, step (sampleOf 0x00628463#32) = .next t ∧ look 0 t = (0#32, 0x1008#32, .running)) ∧
    decodeWord 0x00628463#32 = .ok (.beq 5 6 8#13) ∧ sample.readReg 5 = sample.readReg 6 ∧
    (∃ t, step (sampleOf 0x00728463#32) = .next t ∧ look 0 t = (0#32, 0x1004#32, .running)) ∧
    decodeWord 0x00728463#32 = .ok (.beq 5 7 8#13) ∧ sample.readReg 5 ≠ sample.readReg 7 ∧
    (∃ t, step sample = .next t ∧ look 0 t = (0#32, 0x1004#32, .running)) ∧
    decodeWord 0x00000013#32 = .ok (.addi 0 0 0#12) :=
  ⟨of_seen (by decide), by decide, by decide, of_seen (by decide), by decide, by decide, of_seen (by decide), by decide⟩

theorem witness_PcAdvancesByFourOrBranches_fetch :
    atWord (sampleOf 0x00628463#32) 0 0x00628463#32 ∧ atWord (sampleOf 0x00728463#32) 0 0x00728463#32 ∧
    atWord sample 0 0x00000013#32 := ⟨⟨by decide, rfl⟩, ⟨by decide, rfl⟩, ⟨by decide, rfl⟩⟩

/-- The exception a step raises, if it raises one. -/
def raised (s : State) : Option Status := after (fun t => t.status) s

/-- Every exception is raised by a step, from each of its sources. -/
theorem witness_ExceptionsComeFromTheirSources :
    (∃ t, step (sample.jump 0x1002#32) = .next t ∧ t.status = .faulted (.instructionAddressMisaligned 0x1002#32)) ∧
    (∃ t, step (sampleOf 0x00628363#32) = .next t ∧ t.status = .faulted (.instructionAddressMisaligned 0x1006#32)) ∧
    (∃ t, step (sample.jump 0x0FFC#32) = .next t ∧ t.status = .faulted (.instructionAccessFault 0x0FFC#32)) ∧
    (∃ t, step (sampleOf 0#32) = .next t ∧ t.status = .faulted (.illegalInstruction 0#32)) ∧
    (∃ t, step (sampleOf 0x00252283#32) = .next t ∧ t.status = .faulted (.loadAddressMisaligned 0x102#32)) ∧
    (∃ t, step (sampleOf 0x0044A283#32) = .next t ∧ t.status = .faulted (.loadAccessFault 0x1000#32)) ∧
    (∃ t, step (sampleOf 0x00652123#32) = .next t ∧ t.status = .faulted (.storeAddressMisaligned 0x102#32)) ∧
    ∃ t, step (sampleOf 0x0064A223#32) = .next t ∧ t.status = .faulted (.storeAccessFault 0x1000#32) :=
  ⟨of_seen (by decide), of_seen (by decide), of_seen (by decide), of_seen (by decide), of_seen (by decide),
    of_seen (by decide), of_seen (by decide), of_seen (by decide)⟩

/-- R179: states in which two exceptions would apply: a misaligned pc outside the image, an illegal word, LW at the
misaligned 0xFFFFFFFE outside the memory, SW likewise, and the narrow loads past its end. -/
theorem witness_FirstExceptionInOrderIsRaised :
    raised (sample.jump 0x2002#32) = some (.faulted (.instructionAddressMisaligned 0x2002#32)) ∧
    raised (sample.jump 0x2000#32) = some (.faulted (.instructionAccessFault 0x2000#32)) ∧
    raised (sampleOf 0x00003003#32) = some (.faulted (.illegalInstruction 0x00003003#32)) ∧
    raised (sampleOf 0xFFE02283#32) = some (.faulted (.loadAddressMisaligned 0xFFFFFFFE#32)) ∧
    raised (sampleOf 0xFE502F23#32) = some (.faulted (.storeAddressMisaligned 0xFFFFFFFE#32)) ∧
    raised (sampleOf 0x00449283#32) = some (.faulted (.loadAccessFault 0x1000#32)) ∧
    raised (sampleOf 0x00549283#32) = some (.faulted (.loadAddressMisaligned 0x1001#32)) ∧
    raised (sampleOf 0x0044C283#32) = some (.faulted (.loadAccessFault 0x1000#32)) ∧
    raised (sampleOf 0x00628363#32) = some (.faulted (.instructionAddressMisaligned 0x1006#32)) := by decide

theorem witness_RegisterZeroIsConstant : (31 : Reg) ≠ 0 ∧ (1 : Reg) ≠ 31 := by decide

theorem witness_OnlyTheDestinationRegisterChanges :
    (∃ t, exec (.sub 5 7 6) sample = .next t ∧ t.readReg 5 = 1#32) ∧ destinationOf (.sub 5 7 6) ≠ some 6 ∧
    (∃ t, exec (.sw 6 9 0#12) sample = .next t ∧ t.readReg 6 = 7#32) ∧ destinationOf (.sw 6 9 0#12) ≠ some 6 :=
  ⟨of_seen (by decide), by decide, of_seen (by decide), by decide⟩

theorem witness_OnlyTheSourceRegistersAreRead :
    let s := sample
    let s' := sample.writeReg 7 0xDEAD#32
    s.status = .running ∧ s'.status = .running ∧ s'.pc = s.pc ∧ s'.mem = s.mem ∧ s'.imem = s.imem ∧ s'.config = s.config ∧
    (∀ r ∈ sourcesOf (.lw 4 10 0#12), s'.readReg r = s.readReg r) ∧
    seen (look 4) (exec (.lw 4 10 0#12) s) = some (0x80FF7F01#32, 0x1004#32, .running) ∧
    seen (look 4) (exec (.lw 4 10 0#12) s') = some (0x80FF7F01#32, 0x1004#32, .running) := by decide

theorem witness_ImageIsNeverReadAsData :
    sample.config.faultOnStoreToText = false ∧ ∃ t, exec (.lw 4 10 0#12) sample = .next t ∧ t.readReg 4 = 0x80FF7F01#32 :=
  ⟨rfl, of_seen (by decide)⟩

/-- The last byte of the data memory and the byte after it; x9 = 0xFFC. -/
theorem witness_LoadRule_byte :
    (address sample 9 3#12).toNat % 1 = 0 ∧ inDmem sample (address sample 9 3#12) 1 ∧
    (address sample 9 4#12).toNat % 1 = 0 ∧ ¬ inDmem sample (address sample 9 4#12) 1 := by
  unfold inDmem; decide

/-- The last halfword, an odd address, the halfword after the end. -/
theorem witness_LoadRule_halfword :
    sample.config.byteOrder = .little ∧
    (address sample 9 2#12).toNat % 2 = 0 ∧ inDmem sample (address sample 9 2#12) 2 ∧
    (address sample 9 3#12).toNat % 2 ≠ 0 ∧
    (address sample 9 4#12).toNat % 2 = 0 ∧ ¬ inDmem sample (address sample 9 4#12) 2 := by
  unfold inDmem; decide

/-- The last word, a misaligned address, the word after the end, an aligned address far away. -/
theorem witness_LoadRule_word :
    sample.config.byteOrder = .little ∧
    (address sample 9 0#12).toNat % 4 = 0 ∧ inDmem sample (address sample 9 0#12) 4 ∧
    (address sample 9 2#12).toNat % 4 ≠ 0 ∧
    (address sample 9 4#12).toNat % 4 = 0 ∧ ¬ inDmem sample (address sample 9 4#12) 4 ∧
    (address sample 0 (-4#12)).toNat % 4 = 0 ∧ ¬ inDmem sample (address sample 0 (-4#12)) 4 := by
  unfold inDmem; decide

/-- `sample` with the switch of R45 on and data memory that reaches the image's addresses. -/
def guarded : State :=
  { sample with config := { Config.testVectors with dmemSize := 0x2000, faultOnStoreToText := true } }

/-- The store at the last word of data memory completes; 0xFFE is misaligned; 0x1000 is outside. -/
theorem witness_SwStoresAWord :
    ((address sample 9 (0#7 ++ 0#5)).toNat % 4 = 0 ∧ inDmem sample (address sample 9 (0#7 ++ 0#5)) 4 ∧
      sample.config.byteOrder = .little ∧ sample.config.faultOnStoreToText = false ∧ sample.mem.wf) ∧
    (address sample 9 (0#7 ++ 2#5)).toNat % 4 ≠ 0 ∧
    ((address sample 9 (0#7 ++ 4#5)).toNat % 4 = 0 ∧ ¬ inDmem sample (address sample 9 (0#7 ++ 4#5)) 4) := by
  unfold inDmem; decide

/-- 0xFFC, the last word before the image, does not meet it; 0x1000, its first word, and 0x1004, its last, do. -/
theorem witness_StoreToTextFaultsWhereTheSwitchIsOn :
    guarded.config.faultOnStoreToText = true ∧
    ((address guarded 9 0#12).toNat % 4 = 0 ∧ inDmem guarded (address guarded 9 0#12) 4 ∧
      ¬ meetsImage guarded (address guarded 9 0#12) 4) ∧
    ((address guarded 9 4#12).toNat % 4 = 0 ∧ inDmem guarded (address guarded 9 4#12) 4 ∧
      meetsImage guarded (address guarded 9 4#12) 4) ∧
    ((address guarded 9 8#12).toNat % 4 = 0 ∧ inDmem guarded (address guarded 9 8#12) 4 ∧
      meetsImage guarded (address guarded 9 8#12) 4) := by
  refine ⟨by decide, ⟨by decide, by unfold inDmem; decide, ?_⟩, ⟨by decide, by unfold inDmem; decide, 0x1000, by decide⟩,
    ⟨by decide, by unfold inDmem; decide, 0x1007, by decide⟩⟩
  rintro ⟨b, -, hlt, hge, -⟩
  have h1 : (address guarded 9 0#12).toNat = 0xFFC := by decide
  have h2 : guarded.config.imemBase.toNat = 0x1000 := by decide
  omega

/-- `sample` with the other byte order, at the last halfword and the last word of data memory. -/
theorem witness_BigEndianReversesTheBytes :
    let s := { sample with config := { Config.testVectors with byteOrder := .big } }
    s.config.byteOrder = .big ∧ s.config.faultOnStoreToText = false ∧
    (address s 9 2#12).toNat % 2 = 0 ∧ inDmem s (address s 9 2#12) 2 ∧
    (address s 9 0#12).toNat % 4 = 0 ∧ inDmem s (address s 9 0#12) 4 := by
  unfold inDmem; decide

/-- Taken to an aligned target, taken to a misaligned one, not taken. -/
theorem witness_BeqBranchesOnEquality :
    sample.readReg 5 = sample.readReg 6 ∧ sample.readReg 5 ≠ sample.readReg 7 ∧
    (BitVec.ofInt 32 (sample.pc.toInt + (0#1 ++ 0#1 ++ 0#6 ++ 4#4 ++ 0#1 : BitVec 13).toInt) : Word).toNat % 4 = 0 ∧
    (BitVec.ofInt 32 (sample.pc.toInt + (0#1 ++ 0#1 ++ 0#6 ++ 3#4 ++ 0#1 : BitVec 13).toInt) : Word).toNat % 4 ≠ 0 := by
  decide

theorem witness_LwAfterSwReturnsTheStoredWord :
    sample.mem.wf ∧ sample.status = .running ∧
    ∃ t, exec (.sw 6 9 0#12) sample = .next t ∧ (t.status, address t 0 0#12, address t 9 0#12) =
      (.running, 0#32, address sample 9 0#12) :=
  ⟨by decide, by decide, of_seen (by decide)⟩

/-- Byte 0 and byte 3, halfword 0 and halfword 1 of the word stored at 0xFFC. -/
theorem witness_NarrowLoadsSeeTheStoredBytes :
    sample.mem.wf ∧ sample.status = .running ∧ sample.config.byteOrder = .little ∧
    (∃ t, exec (.sw 6 9 0#12) sample = .next t ∧
      (t.status, (address t 9 0#12).toNat, (address t 9 2#12).toNat, (address t 9 3#12).toNat) =
      (.running, (address sample 9 0#12).toNat + 2 * 0, (address sample 9 0#12).toNat + 2 * 1,
        (address sample 9 0#12).toNat + 3)) :=
  ⟨by decide, by decide, by decide, of_seen (by decide)⟩

/-- The R-type row's signals, ImmSrc at 11. -/
def regControls : Controls := ⟨true, 0b11#2, false, false, false, false, 0b10#2⟩
/-- The store row's signals, ResultSrc at 1. -/
def swControls : Controls := ⟨false, 0b01#2, true, true, true, false, 0b00#2⟩
/-- The branch row's signals, ResultSrc at 0. -/
def beqControls : Controls := ⟨false, 0b10#2, false, false, false, true, 0b01#2⟩

/-- The hypotheses about the decoders, for each of the eight instructions. -/
theorem witness_DatapathExecutesTheDocumentedInstructions_decoders :
    ((mainDecoder 0b0000011#7).map (fun row => row.allows lwControls)) = some true ∧
    ((mainDecoder 0b0100011#7).map (fun row => row.allows swControls)) = some true ∧
    ((mainDecoder 0b0110011#7).map (fun row => row.allows regControls)) = some true ∧
    ((mainDecoder 0b1100011#7).map (fun row => row.allows beqControls)) = some true := by decide

/-- The ALU decoder's code for the words of LW, SW and BEQ, and of the five R-type instructions. -/
theorem witness_DatapathExecutesTheDocumentedInstructions_alu :
    aluDecoder 0b00#2 ((0x00452283#32).extractLsb' 12 3) false false = some 0b000#3 ∧
    aluDecoder 0b00#2 ((0x0064A023#32).extractLsb' 12 3) true false = some 0b000#3 ∧
    aluDecoder 0b01#2 ((0x00628463#32).extractLsb' 12 3) true false = some 0b001#3 ∧
    ([0x007302B3#32, 0x407302B3#32, 0x007322B3#32, 0x007362B3#32, 0x007372B3#32].map
      (fun w => aluDecoder 0b10#2 (w.extractLsb' 12 3) (w.getLsbD 5) (w.getLsbD 30))) =
      [some 0b000#3, some 0b001#3, some 0b101#3, some 0b011#3, some 0b010#3] := by decide

/-- The hypotheses about the meanings: each of the eight completes on `sample`. -/
theorem witness_DatapathExecutesTheDocumentedInstructions_meanings :
    sample.status = .running ∧
    ∀ i ∈ [Instr.lw 5 10 4#12, .sw 6 9 0#12, .add 5 6 7, .sub 5 6 7, .slt 5 6 7, .or 5 6 7, .and 5 6 7, .beq 5 6 8#13],
      mnemonicOf i ∈ [Mnemonic.LW, .SW, .ADD, .SUB, .SLT, .OR, .AND, .BEQ] ∧
      seen (fun t => t.status) (exec i sample) = some .running := by decide

theorem witness_TextbookRowExecutesFourImmediates :
    textbookOpImmRow.allows ⟨true, 0b00#2, true, false, false, false, 0b10#2⟩ = true ∧
    (∀ i ∈ [Instr.addi 5 6 (-1#12), .slti 5 6 (-1#12), .ori 5 6 (-1#12), .andi 5 6 (-1#12)],
      mnemonicOf i ∈ [Mnemonic.ADDI, .SLTI, .ORI, .ANDI] ∧ seen (fun t => t.status) (exec i sample) = some .running) ∧
    ([0xFFF30293#32, 0xFFF32293#32, 0xFFF36293#32, 0xFFF37293#32].map
      (fun w => aluDecoder 0b10#2 (w.extractLsb' 12 3) (w.getLsbD 5) (w.getLsbD 30))) =
      [some 0b000#3, some 0b101#3, some 0b011#3, some 0b010#3] := by decide

theorem witness_TextbookRowExecutesFourImmediates_words :
    decodeWord 0xFFF30293#32 = .ok (.addi 5 6 (-1#12)) ∧ decodeWord 0xFFF32293#32 = .ok (.slti 5 6 (-1#12)) ∧
    decodeWord 0xFFF36293#32 = .ok (.ori 5 6 (-1#12)) ∧ decodeWord 0xFFF37293#32 = .ok (.andi 5 6 (-1#12)) := by decide

theorem witness_PseudoInstructionsDoWhatTheyName :
    sample.readReg 5 ≠ 0#32 ∧ sample.readReg 1 = 0#32 ∧ (sample.pc + sext32 13 (-4#13)).toNat % 4 = 0 := by decide

end Sys2Proof.Tests
end

