-- ==== Sys2Proof/Proofs/MemoryAccess.lean ====
section
/-! Loads and SW in the vocabulary of the statements: the address, the range check, the number the bytes stand for, and
what an access that raises nothing completes with, in either byte order. -/

namespace Sys2Proof.Claim

open Sys2Proof.Machine

/-! ### The statements' vocabulary and the model's operations -/

theorem sext32_eq_signExtend (n : Nat) (v : BitVec n) : sext32 n v = v.signExtend 32 := rfl

/-- The sum of the signed values modulo 2^32 is the sum of the words (R40). -/
theorem effectiveAddress_eq_address (s : State) (rs1 : Reg) (imm : BitVec 12) :
    s.effectiveAddress rs1 imm = address s rs1 imm := by
  rw [address, BitVec.ofInt_add, BitVec.ofInt_toInt]
  rfl

theorem inDataMemory_iff_inDmem (s : State) (a : Word) (n : Nat) : s.inDataMemory a n = true ↔ inDmem s a n :=
  decide_eq_true_iff

/-! ### The number that bytes stand for (R30) -/

/-- A byte put below a value counts once, the value above it 256 times. -/
theorem toNat_append_byte {n : Nat} (x : BitVec n) (b : Byte) : (x ++ b).toNat = b.toNat + 256 * x.toNat := by
  rw [BitVec.toNat_append, ← Nat.shiftLeft_add_eq_or_of_lt b.isLt, Nat.shiftLeft_eq]
  omega

theorem toNat_halfOfBytes (o : ByteOrder) (b0 b1 : Byte) : (halfOfBytes o b0 b1).toNat = valueOfBytes o [b0, b1] := by
  cases o <;> simp [halfOfBytes, valueOfBytes, toNat_append_byte]

theorem toNat_wordOfBytes (o : ByteOrder) (b0 b1 b2 b3 : Byte) :
    (wordOfBytes o b0 b1 b2 b3).toNat = valueOfBytes o [b0, b1, b2, b3] := by
  cases o <;> simp [wordOfBytes, valueOfBytes, toNat_append_byte]

theorem valueOfBytes_two (o : ByteOrder) (s : State) (a : Nat) :
    valueOfBytes o (bytesFrom s a 2) = (s.mem.halfAt o a).toNat :=
  (toNat_halfOfBytes o _ _).symm

theorem valueOfBytes_four (o : ByteOrder) (s : State) (a : Nat) :
    valueOfBytes o (bytesFrom s a 4) = (s.mem.wordAt o a).toNat :=
  (toNat_wordOfBytes o _ _ _ _).symm

/-! ### Accesses that raise nothing -/

section
variable {s : State} {rs1 : Reg} {imm : BitVec 12} {n : Nat}

theorem loadException_eq_none_of_inDmem (ha : (address s rs1 imm).toNat % n = 0) (hin : inDmem s (address s rs1 imm) n) :
    s.loadException (s.effectiveAddress rs1 imm) n = none := by
  rw [effectiveAddress_eq_address, State.loadException_eq_none, inDataMemory_iff_inDmem]
  exact ⟨ha, hin⟩

/-- An instruction that retires `v` to `rd` writes nothing else (R11, R14). -/
theorem completesWriting_of_retire {i : Instr} {rd : Reg} {v : Word} (h : exec i s = .next (s.retire rd v)) :
    CompletesWriting i s rd v :=
  ⟨_, h, s.readReg_retire_same rd v, fun r => s.readReg_retire_other rd r v, by simp, by simp, by simp [MemoriesKept]⟩

/-- A load of `n` bytes, aligned and inside the data memory, writes its value in the configured byte order (R90). -/
theorem load_completesWriting {i : Instr} {rd : Reg} (f : Memory → ByteOrder → Nat → Word)
    (hi : exec i s = load n f rd rs1 imm s) (ha : (address s rs1 imm).toNat % n = 0)
    (hin : inDmem s (address s rs1 imm) n) :
    CompletesWriting i s rd (f s.mem s.config.byteOrder (address s rs1 imm).toNat) := by
  have hload := load_completes n f rd rs1 imm s (loadException_eq_none_of_inDmem ha hin)
  rw [effectiveAddress_eq_address] at hload
  exact completesWriting_of_retire (hi.trans hload)

theorem lh_completesWriting (rd : Reg) (ha : (address s rs1 imm).toNat % 2 = 0) (hin : inDmem s (address s rs1 imm) 2) :
    CompletesWriting (.lh rd rs1 imm) s rd (sext32 16
      (BitVec.ofNat 16 (valueOfBytes s.config.byteOrder (bytesFrom s (address s rs1 imm).toNat 2)))) := by
  rw [valueOfBytes_two, BitVec.ofNat_toNat, BitVec.setWidth_eq, sext32_eq_signExtend]
  exact load_completesWriting (fun m o a => (m.halfAt o a).signExtend 32) rfl ha hin

theorem lhu_completesWriting (rd : Reg) (ha : (address s rs1 imm).toNat % 2 = 0) (hin : inDmem s (address s rs1 imm) 2) :
    CompletesWriting (.lhu rd rs1 imm) s rd
      (BitVec.ofNat 32 (valueOfBytes s.config.byteOrder (bytesFrom s (address s rs1 imm).toNat 2))) := by
  rw [valueOfBytes_two, BitVec.ofNat_toNat]
  exact load_completesWriting (fun m o a => (m.halfAt o a).zeroExtend 32) rfl ha hin

theorem lw_completesWriting (rd : Reg) (ha : (address s rs1 imm).toNat % 4 = 0) (hin : inDmem s (address s rs1 imm) 4) :
    CompletesWriting (.lw rd rs1 imm) s rd
      (BitVec.ofNat 32 (valueOfBytes s.config.byteOrder (bytesFrom s (address s rs1 imm).toNat 4))) := by
  rw [valueOfBytes_four, BitVec.ofNat_toNat, BitVec.setWidth_eq]
  exact load_completesWriting (fun m o a => m.wordAt o a) rfl ha hin

/-- A SW that raises nothing stores the word in the configured byte order (R151). -/
theorem sw_completesStoring {rs2 : Reg} (h : s.storeException (s.effectiveAddress rs1 imm) 4 = none) :
    CompletesStoring (.sw rs2 rs1 imm) s (address s rs1 imm) (s.readReg rs2) := by
  have hexec : exec (.sw rs2 rs1 imm) s = .next (s.storeWord (address s rs1 imm) (s.readReg rs2)).advance := by
    simp only [exec, execSw, h]
    rw [effectiveAddress_eq_address]
  refine ⟨_, hexec, fun hwf => ?_, fun b hb => ?_, fun r => ?_, by simp, by simp, by simp, by simp⟩
  · rw [valueOfBytes_four, State.advance_mem, State.storeWord_mem, Memory.wordAt_setWord _ _ _ _ hwf]
  · rw [State.advance_mem, State.storeWord_mem, Memory.byteAt_setWord_other _ _ _ _ _ hb]
  · rw [State.readReg_advance, State.readReg_storeWord]

/-- With the switch of R45 off a store checks alignment and range alone (R35). -/
theorem storeException_eq_none_of_inDmem (hoff : s.config.faultOnStoreToText = false)
    (ha : (address s rs1 imm).toNat % n = 0) (hin : inDmem s (address s rs1 imm) n) :
    s.storeException (s.effectiveAddress rs1 imm) n = none := by
  rw [effectiveAddress_eq_address, State.storeException_eq_none, inDataMemory_iff_inDmem]
  exact ⟨ha, hin, by simp [hoff]⟩

end

/-! ### Byte order big (log 9) -/

/-- Settles O47: each access completes in whatever byte order is configured, here big. -/
theorem bigEndianReversesTheBytes : Obligations.BigEndianReversesTheBytes := by
  intro rd rs2 rs1 imm s hbig
  rw [← hbig]
  refine ⟨fun ha hin => ⟨?_, ?_⟩, fun ha hin => ⟨?_, fun hoff => ?_⟩⟩
  · exact lh_completesWriting rd ha hin
  · exact lhu_completesWriting rd ha hin
  · exact lw_completesWriting rd ha hin
  · exact sw_completesStoring (storeException_eq_none_of_inDmem hoff ha hin)

end Sys2Proof.Claim
end

