-- ==== Sys2Proof/Proofs/State.lean ====
section
/-! The rules of spec/10_state.md about every instruction and every step: which register an instruction changes, which it
reads, where `pc` goes, when a machine has a step, and the invariant. -/

namespace Sys2Proof.Machine

/-! ### What a completed instruction leaves in the registers, `pc` and the data memory -/

/-- An instruction that completes writes no register but its destination (R12). -/
theorem Completed.readReg_other {i : Instr} {s t : State} (h : Completed i s t) {r : Reg}
    (hr : destinationOf i ≠ some r) : t.readReg r = s.readReg r := by
  cases h with
  | retired rd v hrd => exact s.readReg_retire_other rd r v (fun hrr => hr (hrr ▸ hrd))
  | stored | taken | notTaken => simp

/-- Where an instruction that completes leaves `pc`: a taken BEQ at its aligned target, any other at `pc + 4` (R14). -/
theorem Completed.pc_cases {i : Instr} {s t : State} (h : Completed i s t) :
    (∃ rs1 rs2 offset, i = .beq rs1 rs2 offset ∧ s.readReg rs1 = s.readReg rs2 ∧
      (s.branchTarget offset).toNat % 4 = 0 ∧ t.pc = s.branchTarget offset) ∨
    ((∀ rs1 rs2 offset, i = .beq rs1 rs2 offset → s.readReg rs1 ≠ s.readReg rs2) ∧ t.pc = s.pc + 4#32) := by
  cases h with
  | taken rs1 rs2 offset hi heq ha => exact .inl ⟨rs1, rs2, offset, hi, heq, ha, rfl⟩
  | retired rd v hrd =>
    refine .inr ⟨?_, State.retire_pc s rd v⟩
    rintro _ _ _ rfl
    cases hrd
  | stored rs2 rs1 imm hi =>
    subst hi
    exact .inr ⟨fun _ _ _ hbeq => Instr.noConfusion hbeq, rfl⟩
  | notTaken rs1 rs2 offset hi hne =>
    refine .inr ⟨?_, rfl⟩
    rintro _ _ _ rfl
    cases hi
    exact hne

/-- An instruction that completes leaves the data memory or stores one word inside it (R35). -/
theorem Completed.mem_cases {i : Instr} {s t : State} (h : Completed i s t) :
    t.mem = s.mem ∨
      ∃ a v : Word, s.inDataMemory a 4 = true ∧ t.mem = s.mem.setWord s.config.byteOrder a.toNat v := by
  cases h with
  | stored rs2 rs1 imm hi hnone =>
    obtain ⟨-, hin, -⟩ := (s.storeException_eq_none _ _).1 hnone
    exact .inr ⟨_, _, hin, rfl⟩
  | retired | taken | notTaken => exact .inl (by simp)

/-! ### What an instruction depends on

Two states that look the same to an instruction make it do the same. The image is looked at by a store's check alone, and
only with the switch of R45 on. -/

/-- The two states agree on everything the instruction may look at. -/
structure LooksSameTo (i : Instr) (s s' : State) : Prop where
  pc : s'.pc = s.pc
  mem : s'.mem = s.mem
  config : s'.config = s.config
  image : s'.imem = s.imem ∨ s.config.faultOnStoreToText = false
  sources : ∀ r ∈ sourcesOf i, s'.readReg r = s.readReg r

/-- The same is done from `s` and from `s'`: one exception raised, one value retired to the destination, one word stored,
or one jump. -/
inductive SameOutcome (i : Instr) (s s' : State) : Result → Result → Prop where
  | raised (e : Exception) : SameOutcome i s s' (.next (s.raise e)) (.next (s'.raise e))
  | retired (rd : Reg) (v : Word) : destinationOf i = some rd →
      SameOutcome i s s' (.next (s.retire rd v)) (.next (s'.retire rd v))
  | stored (a v : Word) : destinationOf i = none →
      SameOutcome i s s' (.next (s.storeWord a v).advance) (.next (s'.storeWord a v).advance)
  | jumped (target : Word) : destinationOf i = none → SameOutcome i s s' (.next (s.jump target)) (.next (s'.jump target))

section
variable {i : Instr} {s s' : State} {rd rs1 rs2 : Reg}

theorem LooksSameTo.inDataMemory (h : LooksSameTo i s s') (a : Word) (n : Nat) :
    s'.inDataMemory a n = s.inDataMemory a n := by
  rw [State.inDataMemory, State.inDataMemory, h.config]

theorem LooksSameTo.loadException (h : LooksSameTo i s s') (a : Word) (n : Nat) :
    s'.loadException a n = s.loadException a n := by
  rw [State.loadException, State.loadException, h.inDataMemory]

theorem LooksSameTo.storeException (h : LooksSameTo i s s') (a : Word) (n : Nat) :
    s'.storeException a n = s.storeException a n := by
  rw [State.storeException, State.storeException, h.inDataMemory, h.config]
  rcases h.image with himem | hoff
  · rw [State.overlapsImage, State.overlapsImage, h.config, himem]
  · rw [hoff, Bool.false_and, Bool.false_and]

theorem LooksSameTo.effectiveAddress (h : LooksSameTo i s s') (hr : rs1 ∈ sourcesOf i) (imm : BitVec 12) :
    s'.effectiveAddress rs1 imm = s.effectiveAddress rs1 imm := by
  rw [State.effectiveAddress, State.effectiveAddress, h.sources rs1 hr]

theorem load_sameOutcome (h : LooksSameTo i s s') (hd : destinationOf i = some rd) (hr : rs1 ∈ sourcesOf i) (n : Nat)
    (f : Memory → ByteOrder → Nat → Word) (imm : BitVec 12) :
    SameOutcome i s s' (load n f rd rs1 imm s) (load n f rd rs1 imm s') := by
  unfold load
  rw [h.effectiveAddress hr, h.loadException, h.mem, h.config]
  cases s.loadException (s.effectiveAddress rs1 imm) n with
  | some e => exact .raised e
  | none => exact .retired rd _ hd

theorem opImm_sameOutcome (h : LooksSameTo i s s') (hd : destinationOf i = some rd) (hr : rs1 ∈ sourcesOf i)
    (f : Word → Word → Word) (imm : BitVec 12) : SameOutcome i s s' (opImm f rd rs1 imm s) (opImm f rd rs1 imm s') := by
  unfold opImm
  rw [h.sources rs1 hr]
  exact .retired rd _ hd

theorem shiftImm_sameOutcome (h : LooksSameTo i s s') (hd : destinationOf i = some rd) (hr : rs1 ∈ sourcesOf i)
    (f : Word → Nat → Word) (shamt : BitVec 5) :
    SameOutcome i s s' (shiftImm f rd rs1 shamt s) (shiftImm f rd rs1 shamt s') := by
  unfold shiftImm
  rw [h.sources rs1 hr]
  exact .retired rd _ hd

theorem regReg_sameOutcome (h : LooksSameTo i s s') (hd : destinationOf i = some rd) (hr1 : rs1 ∈ sourcesOf i)
    (hr2 : rs2 ∈ sourcesOf i) (f : Word → Word → Word) :
    SameOutcome i s s' (regReg f rd rs1 rs2 s) (regReg f rd rs1 rs2 s') := by
  unfold regReg
  rw [h.sources rs1 hr1, h.sources rs2 hr2]
  exact .retired rd _ hd

theorem execSw_sameOutcome (h : LooksSameTo i s s') (hd : destinationOf i = none) (hr1 : rs1 ∈ sourcesOf i)
    (hr2 : rs2 ∈ sourcesOf i) (imm : BitVec 12) : SameOutcome i s s' (execSw rs2 rs1 imm s) (execSw rs2 rs1 imm s') := by
  unfold execSw
  rw [h.effectiveAddress hr1, h.storeException, h.sources rs2 hr2]
  cases s.storeException (s.effectiveAddress rs1 imm) 4 with
  | some e => exact .raised e
  | none => exact .stored _ _ hd

theorem execBeq_sameOutcome (h : LooksSameTo i s s') (hd : destinationOf i = none) (hr1 : rs1 ∈ sourcesOf i)
    (hr2 : rs2 ∈ sourcesOf i) (offset : BitVec 13) :
    SameOutcome i s s' (execBeq rs1 rs2 offset s) (execBeq rs1 rs2 offset s') := by
  unfold execBeq State.branchTarget State.advance
  rw [h.sources rs1 hr1, h.sources rs2 hr2, h.pc]
  split_ifs
  · exact .jumped _ hd
  · exact .raised _
  · exact .jumped _ hd

/-- An instruction does the same from two states that look the same to it. -/
theorem exec_sameOutcome (h : LooksSameTo i s s') : SameOutcome i s s' (exec i s) (exec i s') := by
  cases i with
  | lb rd rs1 imm | lh rd rs1 imm | lw rd rs1 imm | lbu rd rs1 imm | lhu rd rs1 imm =>
    simp only [exec, execLb, execLh, execLw, execLbu, execLhu]
    exact load_sameOutcome h rfl (List.mem_singleton_self rs1) _ _ imm
  | addi rd rs1 imm | slti rd rs1 imm | sltiu rd rs1 imm | xori rd rs1 imm | ori rd rs1 imm | andi rd rs1 imm =>
    simp only [exec, execAddi, execSlti, execSltiu, execXori, execOri, execAndi]
    exact opImm_sameOutcome h rfl (List.mem_singleton_self rs1) _ imm
  | slli rd rs1 shamt | srli rd rs1 shamt | srai rd rs1 shamt =>
    simp only [exec, execSlli, execSrli, execSrai]
    exact shiftImm_sameOutcome h rfl (List.mem_singleton_self rs1) _ shamt
  | add rd rs1 rs2 | sub rd rs1 rs2 | slt rd rs1 rs2 | or rd rs1 rs2 | and rd rs1 rs2 =>
    simp only [exec, execAdd, execSub, execSlt, execOr, execAnd]
    exact regReg_sameOutcome h rfl (by simp [sourcesOf]) (by simp [sourcesOf]) _
  | sw rs2 rs1 imm => exact execSw_sameOutcome h rfl (by simp [sourcesOf]) (by simp [sourcesOf]) imm
  | beq rs1 rs2 offset => exact execBeq_sameOutcome h rfl (by simp [sourcesOf]) (by simp [sourcesOf]) offset

end

/-- Retiring an instruction does not look at the image. -/
theorem State.retire_replaceImage (s : State) (image : List Word) (rd : Reg) (v : Word) :
    State.retire { s with imem := image } rd v = { s.retire rd v with imem := image } := by
  unfold State.retire State.writeReg
  split <;> rfl

/-! ### The invariant -/

/-- The exception of a load of 1, 2 or 4 bytes records an address that is no word of the data memory (R175, R176). -/
theorem State.loadException_recordHolds {s : State} {a : Word} {n : Nat} {e : Exception} (hn : n ∣ 4)
    (h : s.loadException a n = some e) : e.recordHolds s := by
  rcases s.loadException_eq_some a n e h with ⟨rfl, hmis⟩ | ⟨rfl, -, hout⟩
  · exact fun h4 => hmis (Nat.mod_eq_zero_of_dvd (hn.trans (Nat.dvd_of_mod_eq_zero h4)))
  · have hmono := s.inDataMemory_mono a 4 n (Nat.le_of_dvd (by omega) hn)
    rw [hout] at hmono
    exact Bool.eq_false_of_not_eq_true (fun hin => Bool.false_ne_true (hmono hin))

/-- The exception of a word store records an address the store may not be made at (R177, R178). -/
theorem State.storeException_recordHolds {s : State} {a : Word} {e : Exception} (h : s.storeException a 4 = some e) :
    e.recordHolds s := by
  rcases s.storeException_eq_some a 4 e h with ⟨rfl, hmis⟩ | ⟨rfl, -, hout⟩
  · exact hmis
  · exact hout

/-- What an instruction raises records what is true of the state it is raised in (R170). -/
theorem exceptionOf_recordHolds {i : Instr} {s : State} {e : Exception} (h : exceptionOf i s = some e) :
    e.recordHolds s := by
  cases i with
  | lb | lbu => exact State.loadException_recordHolds (n := 1) (by decide) h
  | lh | lhu => exact State.loadException_recordHolds (n := 2) (by decide) h
  | lw => exact State.loadException_recordHolds (n := 4) (by decide) h
  | sw => exact State.storeException_recordHolds h
  | beq rs1 rs2 offset =>
    simp only [exceptionOf] at h
    split at h
    · next hc =>
      cases h
      exact hc.2
    · cases h
  | _ => cases h

/-- Raising an exception whose record is true keeps the invariant. -/
theorem State.Inv.raise {s : State} (h : s.Inv) {e : Exception} (he : e.recordHolds s) : (s.raise e).Inv where
  accepted := h.accepted
  memCanonical := h.memCanonical
  memExists := h.memExists
  pcAligned := h.pcAligned
  endedAtEnd hs := nomatch hs
  recordTrue e' hs := by
    cases hs
    cases e <;> exact he

/-- Ending the run at `END_PC` keeps the invariant. -/
theorem State.Inv.endRun {s : State} (h : s.Inv) (he : s.pc = s.endPc) : s.endRun.Inv where
  accepted := h.accepted
  memCanonical := h.memCanonical
  memExists := h.memExists
  pcAligned := h.pcAligned
  endedAtEnd _ := he
  recordTrue _ hs := nomatch hs

/-- An instruction that completes keeps `pc` a multiple of 4 (R16). -/
theorem Completed.pcAligned {i : Instr} {s t : State} (h : Completed i s t) (hpc : s.pc.toNat % 4 = 0) :
    t.pc.toNat % 4 = 0 := by
  rcases h.pc_cases with ⟨_, _, _, -, -, ha, ht⟩ | ⟨-, ht⟩
  · rw [ht, ha]
  · rw [ht, BitVec.toNat_add, BitVec.toNat_ofNat]
    omega

/-- An instruction that completes lists no byte outside the data memory (R20). -/
theorem Completed.memExists {i : Instr} {s t : State} (h : Completed i s t)
    (hs : ∀ c ∈ s.mem, s.config.dmemBase.toNat ≤ c.1 ∧ c.1 < s.config.dmemBase.toNat + s.config.dmemSize) :
    ∀ c ∈ t.mem, s.config.dmemBase.toNat ≤ c.1 ∧ c.1 < s.config.dmemBase.toNat + s.config.dmemSize := by
  intro c hc
  rcases h.mem_cases with ht | ⟨a, v, hin, ht⟩
  · exact hs c (ht ▸ hc)
  · rcases Memory.mem_setWord _ _ _ _ c (ht ▸ hc) with hnew | hold
    · simp only [State.inDataMemory, decide_eq_true_eq] at hin
      omega
    · exact hs c hold

/-- An instruction that completes on a running machine keeps the invariant. -/
theorem Completed.inv {i : Instr} {s t : State} (h : Completed i s t) (hs : s.Inv) (hrun : s.status = .running) :
    t.Inv := by
  obtain ⟨hstatus, himem, hconfig⟩ := h.keeps
  have htrun : t.status = .running := hstatus.trans hrun
  exact {
    accepted := by
      rw [← hs.accepted]
      simp only [State.configAccepted, himem, hconfig]
    memCanonical := by
      rcases h.mem_cases with ht | ⟨a, v, -, ht⟩
      · exact ht ▸ hs.memCanonical
      · exact ht ▸ Memory.setWord_wf _ _ _ _ hs.memCanonical
    memExists := hconfig ▸ h.memExists hs.memExists
    pcAligned := h.pcAligned hs.pcAligned
    endedAtEnd := fun hend => nomatch htrun.symm.trans hend
    recordTrue := fun e hf => nomatch htrun.symm.trans hf }

/-- An instruction run on a running machine keeps the invariant, whether it raises or completes. -/
theorem State.Inv.exec {i : Instr} {s t : State} (hs : s.Inv) (hrun : s.status = .running) (h : exec i s = .next t) :
    t.Inv := by
  rcases exec_cases i s t h with ⟨e, he, rfl⟩ | ⟨-, hcompleted⟩
  · exact hs.raise (exceptionOf_recordHolds he)
  · exact hcompleted.inv hs hrun

end Sys2Proof.Machine

namespace Sys2Proof.Claim

open Sys2Proof.Machine

/-- Settles O13: each kind of step (`Stepped`) keeps the invariant. -/
theorem stepKeepsTheInvariant : Obligations.StepKeepsTheInvariant := by
  intro s t hs hstep
  obtain ⟨hrun, -, hstepped⟩ := step_cases s t hstep
  cases hstepped with
  | misaligned ha => exact hs.raise ha
  | ended _ he => exact hs.endRun he
  | outside _ hfetch he => exact hs.raise ⟨rfl, hfetch, he⟩
  | illegal w _ _ hfetch => exact hs.raise hfetch
  | executed w i _ _ _ _ _ _ hexec => exact hs.exec hrun hexec

/-! ### The instruction cycle (R15, R22) -/

theorem toNat_endPc (s : State) : s.endPc.toNat = endAddress s := by
  rw [State.endPc, endAddress, BitVec.toNat_add, BitVec.toNat_ofNat, Nat.add_mod_mod]

/-- The words of an accepted image stand at multiples of 4 (R39). -/
theorem pcAligned_of_atWord {s : State} {k : Nat} {w : Word} (hacc : s.configAccepted = true) (h : atWord s k w) :
    s.pc.toNat % 4 = 0 := by
  simp only [State.configAccepted, decide_eq_true_eq] at hacc
  obtain ⟨hbase, -, -⟩ := hacc
  obtain ⟨hpc, -⟩ := h
  omega

/-- Settles O3: the hypotheses are those of the execution case of a step. -/
theorem stepRunsTheFetchedInstruction : Obligations.StepRunsTheFetchedInstruction := by
  intro s k w i hrun hacc hat hend hdec hadm
  obtain ⟨t, ht⟩ := exec_next i s
  have hpc : s.pc ≠ s.endPc := fun he => hend (by rw [he, toNat_endPc])
  have hfetch : s.instrFetch = some w := (s.instrFetch_eq_some w).2 ⟨k, hat⟩
  rw [ht]
  exact step_of_stepped s t hrun hacc (.executed w i t (pcAligned_of_atWord hacc hat) hpc hfetch hdec hadm ht)

/-- Settles O10: the first check of the cycle is that of `pc`. -/
theorem misalignedPcRaises : Obligations.MisalignedPcRaises :=
  fun s hrun hacc hmis => step_of_stepped s _ hrun hacc (.misaligned hmis)

/-- Settles O14: one of the kinds of step always applies, and each of them is of a running machine. -/
theorem onlyARunningMachineSteps : Obligations.OnlyARunningMachineSteps := by
  refine fun s => ⟨fun hacc hrun => ?_, fun hstopped t hstep => hstopped (step_cases s t hstep).1⟩
  obtain ⟨t, ht⟩ := exists_stepped s
  exact ⟨t, step_of_stepped s t hrun hacc ht⟩

/-- Settles O17. -/
theorem imageAndConfigurationAreConstant : Obligations.ImageAndConfigurationAreConstant := by
  intro s t hstep
  obtain ⟨-, -, hstepped⟩ := step_cases s t hstep
  exact hstepped.keeps

/-- A step that leaves the machine running has completed the instruction at `pc`. -/
theorem completed_of_step {s t : State} {k : Nat} {w : Word} {i : Instr} (hstep : step s = .next t)
    (hrun : t.status = .running) (hat : atWord s k w) (hdec : decodeWord w = .ok i) : Completed i s t := by
  obtain ⟨-, -, hstepped⟩ := step_cases s t hstep
  cases hstepped with
  | executed w' i' _ _ _ hfetch hdec' _ hexec =>
    have hw : w' = w := Option.some.inj (hfetch.symm.trans ((s.instrFetch_eq_some w).2 ⟨k, hat⟩))
    subst hw
    have hi : i' = i := Except.ok.inj (hdec'.symm.trans hdec)
    subst hi
    rcases exec_cases _ s t hexec with ⟨e, -, rfl⟩ | ⟨-, hcompleted⟩
    · cases hrun
    · exact hcompleted
  | misaligned | ended | outside | illegal => cases hrun

/-- Settles O19. -/
theorem pcAdvancesByFourOrBranches : Obligations.PcAdvancesByFourOrBranches := by
  intro s t k w i hstep hrun hat hdec
  rcases (completed_of_step hstep hrun hat hdec).pc_cases with
    ⟨rs1, rs2, offset, rfl, heq, -, hpc⟩ | ⟨hnot, hpc⟩
  · refine ⟨fun _ _ _ hi _ => ?_, fun hne => absurd heq (hne rs1 rs2 offset rfl)⟩
    cases hi
    exact hpc
  · exact ⟨fun rs1 rs2 offset hi heq => absurd heq (hnot rs1 rs2 offset hi), fun _ => hpc⟩

/-! ### Registers (R11, R12) and the image (R20) -/

/-- Settles O22. -/
theorem registerZeroIsConstant : Obligations.RegisterZeroIsConstant := by
  refine fun s v => ⟨s.readReg_zero, s.writeReg_zero v, fun r hr => ⟨?_, fun q hq => ?_⟩⟩
  · rw [s.readReg_writeReg, if_pos ⟨rfl, hr⟩]
  · rw [s.readReg_writeReg, if_neg (fun h => hq h.1)]

/-- Settles O23: raising writes no register, and completing writes the destination alone. -/
theorem onlyTheDestinationRegisterChanges : Obligations.OnlyTheDestinationRegisterChanges := by
  intro i s t hexec r hr
  rcases exec_cases i s t hexec with ⟨e, -, rfl⟩ | ⟨-, hcompleted⟩
  · exact s.readReg_raise e r
  · exact hcompleted.readReg_other hr

/-- Settles O24: the two states look the same to the instruction, which does the same in both. -/
theorem onlyTheSourceRegistersAreRead : Obligations.OnlyTheSourceRegistersAreRead := by
  intro i s s' t t' hrun hrun' hpc hmem himem hconfig hsources hexec hexec'
  have hsame := exec_sameOutcome (i := i) (s := s) (s' := s') ⟨hpc, hmem, hconfig, .inl himem, hsources⟩
  rw [hexec, hexec'] at hsame
  cases hsame with
  | raised e => exact ⟨hpc, hmem, rfl, fun h => nomatch h⟩
  | retired rd v hrd =>
    refine ⟨by simp [hpc], by simp [hmem], by simp [hrun, hrun'], fun _ rd' hrd' => ?_⟩
    cases hrd.symm.trans hrd'
    rw [State.readReg_retire_same, State.readReg_retire_same]
  | stored a v hnone =>
    exact ⟨by simp [hpc], by simp [hmem, hconfig], by simp [hrun, hrun'], fun _ _ hrd => nomatch hnone.symm.trans hrd⟩
  | jumped target hnone =>
    exact ⟨rfl, hmem, hrun'.trans hrun.symm, fun _ _ hrd => nomatch hnone.symm.trans hrd⟩

/-- Settles O25: with the switch off the two states look the same to the instruction. -/
theorem imageIsNeverReadAsData : Obligations.ImageIsNeverReadAsData := by
  intro i s t image hoff hexec
  have hsame := exec_sameOutcome (i := i) (s := s) (s' := { s with imem := image })
    ⟨rfl, rfl, rfl, .inr hoff, fun _ _ => rfl⟩
  rw [hexec] at hsame
  generalize exec i { s with imem := image } = result at hsame ⊢
  cases hsame with
  | raised | stored | jumped => rfl
  | retired rd v => rw [State.retire_replaceImage]

/-! ### Reset (R23) -/

/-- Settles O2: at reset no byte is listed, the machine runs, and the map is that of the test vectors (log 3). -/
theorem resetMeetsTheInvariant : Obligations.ResetMeetsTheInvariant where
  accepted := by decide
  memCanonical := ⟨List.Pairwise.nil, fun _ hc => nomatch hc⟩
  memExists _ hc := nomatch hc
  pcAligned := by decide
  endedAtEnd hend := nomatch hend
  recordTrue _ hf := nomatch hf

end Sys2Proof.Claim
end

