-- ==== Sys2Proof/Proofs/Memory.lean ====
section
/-! The rules of spec/20_memory.md: the bytes of an encoded instruction, the map the machine accepts, which bytes a step
may change, what the switch of R45 adds to a store, and what a load reads of a word just stored. -/

namespace Sys2Proof

/-! ### Which group of the decoder an opcode selects (R66) -/

section
variable {w : Word}

theorem decodeWord_of_opLoad (h : opField w = 0b0000011#7) : decodeWord w = decodeLoad w := by simp [decodeWord, h]
theorem decodeWord_of_opImm (h : opField w = 0b0010011#7) : decodeWord w = decodeOpImm w := by simp [decodeWord, h]
theorem decodeWord_of_opStore (h : opField w = 0b0100011#7) : decodeWord w = decodeStore w := by simp [decodeWord, h]
theorem decodeWord_of_opReg (h : opField w = 0b0110011#7) : decodeWord w = decodeReg w := by simp [decodeWord, h]
theorem decodeWord_of_opBranch (h : opField w = 0b1100011#7) : decodeWord w = decodeBranch w := by simp [decodeWord, h]

end

/-- The opcode selects the group and the fields come back from the format, the branch offset because it is even (R65). -/
theorem decodeWord_encode {i : Instr} (hwf : i.wellFormed = true) : decodeWord (encode i) = .ok i := by
  cases i with
  | lb | lh | lw | lbu | lhu =>
    rw [encode, decodeWord_of_opLoad (opField_encodeI ..)]
    simp [decodeLoad]
  | addi | slti | sltiu | xori | ori | andi =>
    rw [encode, decodeWord_of_opImm (opField_encodeI ..)]
    simp [decodeOpImm]
  | slli | srli | srai =>
    rw [encode, decodeWord_of_opImm (opField_encodeShift ..)]
    simp [decodeOpImm]
  | sw =>
    rw [encode, decodeWord_of_opStore (opField_encodeS ..)]
    simp [decodeStore]
  | add | sub | slt | or | and =>
    rw [encode, decodeWord_of_opReg (opField_encodeR ..)]
    simp [decodeReg]
  | beq rs1 rs2 offset =>
    rw [encode, decodeWord_of_opBranch (opField_encodeB ..)]
    simp [decodeBranch, immBField_encodeB _ rs1 rs2 offset hwf]

/-- The bytes of a word that decodes decode to the same instruction, whatever follows them (R36). -/
theorem decode_bytesOfWord {w : Word} {i : Instr} (h : decodeWord w = .ok i) (o : ByteOrder) (rest : List Byte) :
    decode o (bytesOfWord o w ++ rest) = .ok (i, rest) := by
  simp [bytesOfWord, decode, Machine.wordOfBytes_byteOfWord, h]

/-! ### The little-endian bytes and halfwords of a word (R30) -/

theorem byteOfWord_little (v : Word) (k : Nat) : byteOfWord .little v k = BitVec.ofNat 8 (v.toNat / 256 ^ k) := by
  rw [show 256 ^ k = 2 ^ (8 * k) from (pow_mul 2 8 k).symm, ← Nat.shiftRight_eq_div_pow]
  rfl

theorem halfOfBytes_byteOfWord_little (v : Word) (h : Nat) :
    halfOfBytes .little (byteOfWord .little v (2 * h)) (byteOfWord .little v (2 * h + 1)) =
      BitVec.ofNat 16 (v.toNat / 65536 ^ h) := by
  have hlow : v.toNat / 256 ^ (2 * h) = v.toNat / 65536 ^ h := by rw [pow_mul 256 2 h]; rfl
  have hhigh : v.toNat / 256 ^ (2 * h + 1) = v.toNat / 65536 ^ h / 256 := by
    rw [pow_succ, ← Nat.div_div_eq_div_mul, hlow]
  apply BitVec.eq_of_toNat_eq
  rw [Claim.toNat_halfOfBytes, byteOfWord_little, byteOfWord_little, hlow, hhigh]
  simp only [Claim.valueOfBytes, List.foldr_cons, List.foldr_nil, BitVec.toNat_ofNat]
  omega

end Sys2Proof

namespace Sys2Proof.Machine

/-- A running machine whose configuration is not accepted is refused (U11). -/
theorem step_of_not_accepted {s : State} (hrun : s.status = .running) (hacc : s.configAccepted = false) :
    step s = .refused .configurationRefused := by
  simp [step, hrun, hacc]

/-- An instruction that completes leaves every byte, or is a SW and leaves every byte but its four (R37). -/
theorem Completed.byteAt_cases {i : Instr} {s t : State} (h : Completed i s t) :
    (∀ a, t.mem.byteAt a = s.mem.byteAt a) ∨
      ∃ rs2 rs1 imm, i = .sw rs2 rs1 imm ∧ ∀ a, a < (s.effectiveAddress rs1 imm).toNat ∨
        (s.effectiveAddress rs1 imm).toNat + 4 ≤ a → t.mem.byteAt a = s.mem.byteAt a := by
  cases h with
  | stored rs2 rs1 imm hi =>
    exact .inr ⟨rs2, rs1, imm, hi, fun a ha => Memory.byteAt_setWord_other _ _ _ _ _ ha⟩
  | retired | taken | notTaken => exact .inl (by simp)

/-- A halfword inside a word stored little-endian (canonical form). -/
theorem Memory.halfAt_setWord_little (m : Memory) (a h : Nat) (v : Word) (hm : m.wf) (hh : h < 2) :
    (m.setWord .little a v).halfAt .little (a + 2 * h) = BitVec.ofNat 16 (v.toNat / 65536 ^ h) := by
  rw [Memory.halfAt, Nat.add_assoc, Memory.byteAt_setWord_inside m .little a (2 * h) v hm (by omega),
    Memory.byteAt_setWord_inside m .little a (2 * h + 1) v hm (by omega), halfOfBytes_byteOfWord_little]

end Sys2Proof.Machine

namespace Sys2Proof.Claim

open Sys2Proof.Machine

/-- Settles O6: from the word by its fields, and from the bytes by the word they make up. -/
theorem decodeOfEncodeIsTheInstruction : Obligations.DecodeOfEncodeIsTheInstruction :=
  fun _ hwf => ⟨decodeWord_encode hwf, decode_bytesOfWord (decodeWord_encode hwf)⟩

/-- Settles O12: each clause denies one of the three constraints of `configAccepted`. -/
theorem unacceptableMapIsRefused : Obligations.UnacceptableMapIsRefused := by
  intro s hrun hbad
  refine step_of_not_accepted hrun ?_
  rw [State.configAccepted, decide_eq_false_iff_not]
  omega

/-- Settles O18: only a step that completes an instruction writes data memory, and of those only a SW. -/
theorem onlySwWritesDataMemory : Obligations.OnlySwWritesDataMemory := by
  intro s t hstep
  obtain ⟨-, -, hstepped⟩ := step_cases s t hstep
  cases hstepped with
  | misaligned | ended | outside | illegal => exact .inl fun _ => rfl
  | executed w i _ _ _ hfetch hdec _ hexec =>
    rcases exec_cases i s t hexec with ⟨e, -, rfl⟩ | ⟨-, hcompleted⟩
    · exact .inl fun _ => rfl
    rcases hcompleted.byteAt_cases with hall | ⟨rs2, rs1, imm, rfl, houtside⟩
    · exact .inl hall
    · obtain ⟨k, hat⟩ := (s.instrFetch_eq_some w).1 hfetch
      rw [effectiveAddress_eq_address] at houtside
      exact .inr ⟨k, w, rs2, rs1, imm, hat, hdec, houtside⟩

/-! ### The switch of R45 -/

/-- Two address ranges meet exactly where each begins before the other ends; an empty image meets nothing. -/
theorem overlapsImage_iff_meetsImage (s : State) (a : Word) {n : Nat} (hn : 0 < n) :
    s.overlapsImage a n = true ↔ meetsImage s a n := by
  rw [State.overlapsImage, decide_eq_true_iff, meetsImage]
  constructor
  · rintro ⟨hlen, hbefore, hafter⟩
    exact ⟨max a.toNat s.config.imemBase.toNat, by omega⟩
  · rintro ⟨b, hb⟩
    omega

/-- Raising writes nothing but the status (R171). -/
theorem raises_of_exceptionOf {i : Instr} {s : State} {e : Exception} (h : exceptionOf i s = some e) : Raises i s e :=
  ⟨_, exec_raises i s e h, rfl, s.readReg_raise e, rfl, fun _ => rfl, rfl, rfl⟩

/-- With the switch on, an aligned store inside the data memory that meets the image raises StoreAccessFault (R45, D10). -/
theorem storeException_of_meetsImage {s : State} {a : Word} (hon : s.config.faultOnStoreToText = true)
    (ha : a.toNat % 4 = 0) (hmeets : meetsImage s a 4) : s.storeException a 4 = some (.storeAccessFault a) := by
  have hoverlaps := (overlapsImage_iff_meetsImage s a (by omega)).2 hmeets
  cases hx : s.storeException a 4 with
  | none => exact absurd ⟨hon, hoverlaps⟩ ((s.storeException_eq_none a 4).1 hx).2.2
  | some e =>
    rcases s.storeException_eq_some a 4 e hx with ⟨-, hmis⟩ | ⟨rfl, -⟩
    · exact absurd ha hmis
    · rfl

/-- Settles O48: the overlap with the image is the one check left of an aligned SW inside the data memory. -/
theorem storeToTextFaultsWhereTheSwitchIsOn : Obligations.StoreToTextFaultsWhereTheSwitchIsOn := by
  refine fun rs2 rs1 imm s hon ha hin => ⟨fun hmeets => raises_of_exceptionOf ?_, fun hapart => sw_completesStoring ?_⟩
  · rw [exceptionOf, effectiveAddress_eq_address]
    exact storeException_of_meetsImage hon ha hmeets
  · rw [effectiveAddress_eq_address, State.storeException_eq_none, inDataMemory_iff_inDmem,
      overlapsImage_iff_meetsImage s _ (by omega)]
    exact ⟨ha, hin, fun h => hapart h.2⟩

/-! ### A load after a store -/

section
variable {s t : State} {rs2 rs1 : Reg} {imm : BitVec 12}

/-- A SW that leaves the machine running has stored its word at an aligned address inside the data memory (R151). -/
theorem sw_completed (hexec : exec (.sw rs2 rs1 imm) s = .next t) (hrun : t.status = .running) :
    (address s rs1 imm).toNat % 4 = 0 ∧ inDmem s (address s rs1 imm) 4 ∧ t.config = s.config ∧
      t.mem = s.mem.setWord s.config.byteOrder (address s rs1 imm).toNat (s.readReg rs2) := by
  rw [← effectiveAddress_eq_address, ← inDataMemory_iff_inDmem]
  rcases exec_cases _ s t hexec with ⟨e, -, rfl⟩ | ⟨hnone, hcompleted⟩
  · cases hrun
  · obtain ⟨ha, hin, -⟩ := (s.storeException_eq_none _ 4).1 hnone
    cases hcompleted with
    | stored _ _ _ hi =>
      cases hi
      exact ⟨ha, hin, rfl, rfl⟩
    | retired _ _ hrd => cases hrd
    | taken _ _ _ hi | notTaken _ _ _ hi => cases hi

/-- A range inside a range of data memory lies in data memory. -/
theorem inDmem_of_within {a b : Word} {n m : Nat} (hin : inDmem s a n) (hconfig : t.config = s.config)
    (hlo : a.toNat ≤ b.toNat) (hhi : b.toNat + m ≤ a.toNat + n) : inDmem t b m := by
  unfold inDmem at *
  rw [hconfig]
  omega

/-- LBU of a byte inside the data memory completes: one byte is never misaligned (R94). -/
theorem lbu_completesWriting (rd : Reg) (hin : inDmem s (address s rs1 imm) 1) :
    CompletesWriting (.lbu rd rs1 imm) s rd (BitVec.ofNat 32 (s.mem.byteAt (address s rs1 imm).toNat).toNat) := by
  rw [BitVec.ofNat_toNat]
  exact load_completesWriting (fun m _ a => (m.byteAt a).zeroExtend 32) rfl (Nat.mod_one _) hin

/-- LB of a byte inside the data memory completes: one byte is never misaligned (R91). -/
theorem lb_completesWriting (rd : Reg) (hin : inDmem s (address s rs1 imm) 1) :
    CompletesWriting (.lb rd rs1 imm) s rd (sext32 8 (s.mem.byteAt (address s rs1 imm).toNat)) := by
  rw [sext32_eq_signExtend]
  exact load_completesWriting (fun m _ a => (m.byteAt a).signExtend 32) rfl (Nat.mod_one _) hin

end

/-- Settles O49: the load passes the checks the store passed and reads the four bytes it wrote. -/
theorem lwAfterSwReturnsTheStoredWord : Obligations.LwAfterSwReturnsTheStoredWord := by
  intro s t rs2 rs1 rd rb imm imm' hwf _ hexec hrun haddr
  obtain ⟨ha, hin, hconfig, hmem⟩ := sw_completed hexec hrun
  rw [← haddr] at ha hin hmem
  have hload := lw_completesWriting rd ha (inDmem_of_within hin hconfig le_rfl le_rfl)
  rwa [valueOfBytes_four, hmem, hconfig, Memory.wordAt_setWord _ _ _ _ hwf, BitVec.ofNat_toNat,
    BitVec.setWidth_eq] at hload

/-- Settles O50: a narrow load inside the stored word reads one or two of the four bytes the store wrote. -/
theorem narrowLoadsSeeTheStoredBytes : Obligations.NarrowLoadsSeeTheStoredBytes := by
  intro s t rs2 rs1 rd rb imm imm' hwf _ hlittle hexec hrun
  obtain ⟨ha, hin, hconfig, hmem⟩ := sw_completed hexec hrun
  rw [hlittle] at hmem
  constructor
  · intro k hk haddr
    have hin' : inDmem t (address t rb imm') 1 := inDmem_of_within hin hconfig (by omega) (by omega)
    have hbyte : t.mem.byteAt (address t rb imm').toNat = BitVec.ofNat 8 ((s.readReg rs2).toNat / 256 ^ k) := by
      rw [hmem, haddr, Memory.byteAt_setWord_inside _ _ _ _ _ hwf hk, byteOfWord_little]
    have hlbu := lbu_completesWriting rd hin'
    have hlb := lb_completesWriting rd hin'
    rw [hbyte] at hlbu hlb
    rw [BitVec.toNat_ofNat] at hlbu
    exact ⟨hlbu, hlb⟩
  · intro h hh haddr
    have ha' : (address t rb imm').toNat % 2 = 0 := by omega
    have hin' : inDmem t (address t rb imm') 2 := inDmem_of_within hin hconfig (by omega) (by omega)
    have hhalf : t.mem.halfAt t.config.byteOrder (address t rb imm').toNat =
        BitVec.ofNat 16 ((s.readReg rs2).toNat / 65536 ^ h) := by
      rw [hmem, haddr, hconfig, hlittle, Memory.halfAt_setWord_little _ _ _ _ hwf hh]
    have hlhu := lhu_completesWriting rd ha' hin'
    have hlh := lh_completesWriting rd ha' hin'
    rw [valueOfBytes_two, hhalf] at hlhu hlh
    rw [BitVec.toNat_ofNat] at hlhu
    rw [BitVec.ofNat_toNat, BitVec.setWidth_eq] at hlh
    exact ⟨hlhu, hlh⟩

end Sys2Proof.Claim
end

