-- ==== Sys2Proof/Proofs/Encoding.lean ====
section
/-! The rules of spec/30_encoding.md: a word that decodes is made up of its instruction's fields, the decoder is the opcode
map, R68's illegal words match no row of the map, and what the expansions of the pseudo-instructions do. -/

namespace Sys2Proof

section
variable {w : Word} {i : Instr}

/-! ### Encoding the fields of a word gives the word back (R60 to R64) -/

theorem encodeI_of_fields {op : BitVec 7} {f3 : BitVec 3} (hop : opField w = op) (hf3 : funct3Field w = f3) :
    encodeI op f3 (rdField w) (rs1Field w) (immIField w) = w := by
  rw [← hop, ← hf3, encodeI_fields]

theorem encodeShift_of_fields {f7 : BitVec 7} {f3 : BitVec 3} (hop : opField w = 0b0010011#7)
    (hf3 : funct3Field w = f3) (hf7 : funct7Field w = f7) :
    encodeShift f7 f3 (rdField w) (rs1Field w) (shamtField w) = w := by
  rw [← hf3, ← hf7, encodeShift_fields w hop]

theorem encodeR_of_fields {f7 : BitVec 7} {f3 : BitVec 3} (hop : opField w = 0b0110011#7)
    (hf : funct7Field w = f7 ∧ funct3Field w = f3) :
    encodeR f7 f3 (rdField w) (rs1Field w) (rs2Field w) = w := by
  rw [← hf.1, ← hf.2, encodeR_fields w hop]

/-! ### What a group of the decoder accepts is the word's own encoding -/

theorem encode_of_decodeLoad (hop : opField w = 0b0000011#7) (h : decodeLoad w = .ok i) :
    encode i = w ∧ i.wellFormed = true := by
  unfold decodeLoad at h
  split_ifs at h with hlb hlh hlw hlbu hlhu <;> cases h
  · exact ⟨encodeI_of_fields hop hlb, rfl⟩
  · exact ⟨encodeI_of_fields hop hlh, rfl⟩
  · exact ⟨encodeI_of_fields hop hlw, rfl⟩
  · exact ⟨encodeI_of_fields hop hlbu, rfl⟩
  · exact ⟨encodeI_of_fields hop hlhu, rfl⟩

theorem encode_of_decodeOpImm (hop : opField w = 0b0010011#7) (h : decodeOpImm w = .ok i) :
    encode i = w ∧ i.wellFormed = true := by
  unfold decodeOpImm at h
  split_ifs at h with haddi hslti hsltiu hxori hori handi hslli hsrli hsrai <;> cases h
  · exact ⟨encodeI_of_fields hop haddi, rfl⟩
  · exact ⟨encodeI_of_fields hop hslti, rfl⟩
  · exact ⟨encodeI_of_fields hop hsltiu, rfl⟩
  · exact ⟨encodeI_of_fields hop hxori, rfl⟩
  · exact ⟨encodeI_of_fields hop hori, rfl⟩
  · exact ⟨encodeI_of_fields hop handi, rfl⟩
  · exact ⟨encodeShift_of_fields hop hslli.1 hslli.2, rfl⟩
  · exact ⟨encodeShift_of_fields hop hsrli.1 hsrli.2, rfl⟩
  · exact ⟨encodeShift_of_fields hop hsrai.1 hsrai.2, rfl⟩

theorem encode_of_decodeStore (hop : opField w = 0b0100011#7) (h : decodeStore w = .ok i) :
    encode i = w ∧ i.wellFormed = true := by
  unfold decodeStore at h
  split_ifs at h with hsw
  cases h
  rw [encode, ← hsw, encodeS_fields w hop]
  exact ⟨rfl, rfl⟩

theorem encode_of_decodeReg (hop : opField w = 0b0110011#7) (h : decodeReg w = .ok i) :
    encode i = w ∧ i.wellFormed = true := by
  unfold decodeReg at h
  split_ifs at h with hadd hsub hslt hor hand <;> cases h
  · exact ⟨encodeR_of_fields hop hadd, rfl⟩
  · exact ⟨encodeR_of_fields hop hsub, rfl⟩
  · exact ⟨encodeR_of_fields hop hslt, rfl⟩
  · exact ⟨encodeR_of_fields hop hor, rfl⟩
  · exact ⟨encodeR_of_fields hop hand, rfl⟩

theorem encode_of_decodeBranch (hop : opField w = 0b1100011#7) (h : decodeBranch w = .ok i) :
    encode i = w ∧ i.wellFormed = true := by
  unfold decodeBranch at h
  split_ifs at h with hbeq
  cases h
  rw [encode, ← hbeq, encodeB_fields w hop]
  exact ⟨rfl, evenOffset_immBField w⟩

/-- A word that decodes is the encoding of its instruction, which is well formed: the opcode selects the group. -/
theorem encode_of_decodeWord (h : decodeWord w = .ok i) : encode i = w ∧ i.wellFormed = true := by
  unfold decodeWord at h
  split_ifs at h with hload himm hstore hreg hbranch
  · exact encode_of_decodeLoad hload h
  · exact encode_of_decodeOpImm himm h
  · exact encode_of_decodeStore hstore h
  · exact encode_of_decodeReg hreg h
  · exact encode_of_decodeBranch hbranch h

/-! ### The rows of the opcode map (R66) -/

variable {row : OpcodeRow}

theorem matchesRow (i : Instr) : Laws.MatchesRow.Statement i := by
  cases i with
  | lb => exact Laws.MatchesRow.lb ..
  | lh => exact Laws.MatchesRow.lh ..
  | lw => exact Laws.MatchesRow.lw ..
  | lbu => exact Laws.MatchesRow.lbu ..
  | lhu => exact Laws.MatchesRow.lhu ..
  | addi => exact Laws.MatchesRow.addi ..
  | slti => exact Laws.MatchesRow.slti ..
  | sltiu => exact Laws.MatchesRow.sltiu ..
  | xori => exact Laws.MatchesRow.xori ..
  | ori => exact Laws.MatchesRow.ori ..
  | andi => exact Laws.MatchesRow.andi ..
  | slli => exact Laws.MatchesRow.slli ..
  | srli => exact Laws.MatchesRow.srli ..
  | srai => exact Laws.MatchesRow.srai ..
  | sw => exact Laws.MatchesRow.sw ..
  | add => exact Laws.MatchesRow.add ..
  | sub => exact Laws.MatchesRow.sub ..
  | slt => exact Laws.MatchesRow.slt ..
  | or => exact Laws.MatchesRow.or ..
  | and => exact Laws.MatchesRow.and ..
  | beq => exact Laws.MatchesRow.beq ..

theorem opcodeMap_mnemonic_injective :
    ∀ row ∈ opcodeMap, ∀ row' ∈ opcodeMap, row.mnemonic = row'.mnemonic → row = row' := by decide

/-- Every mask of the map covers `op`. -/
theorem opField_of_row (hrow : row ∈ opcodeMap) (h : w &&& row.mask = row.pattern) :
    opField w = opField row.pattern :=
  extractLsb'_of_mask w _ _ 0 7 h
    ((by decide : ∀ row ∈ opcodeMap, row.mask.extractLsb' 0 7 = BitVec.allOnes 7) row hrow)

/-- Every mask of the map covers `funct3`. -/
theorem funct3Field_of_row (hrow : row ∈ opcodeMap) (h : w &&& row.mask = row.pattern) :
    funct3Field w = funct3Field row.pattern :=
  extractLsb'_of_mask w _ _ 12 3 h
    ((by decide : ∀ row ∈ opcodeMap, row.mask.extractLsb' 12 3 = BitVec.allOnes 3) row hrow)

/-- The masks of the shifts and of the R-type group cover `funct7` as well. -/
theorem funct7Field_of_row (h : w &&& row.mask = row.pattern) (hmask : row.mask = 0xFE00707F#32) :
    funct7Field w = funct7Field row.pattern :=
  extractLsb'_of_mask w _ _ 25 7 h (by rw [hmask]; rfl)

/-- A word that matches a row decodes to an instruction with the row's mnemonic: the fields the mask covers take the
decoder through its tests to that instruction. -/
theorem decodeWord_of_row (hrow : row ∈ opcodeMap) (h : w &&& row.mask = row.pattern) :
    ∃ i, decodeWord w = .ok i ∧ mnemonicOf i = row.mnemonic := by
  have hop := opField_of_row hrow h
  have hf3 := funct3Field_of_row hrow h
  have hf7 := funct7Field_of_row h
  rw [decodeWord, hop]
  rw [opcodeMap, List.mem_append, List.mem_append] at hrow
  obtain (hload | himm) | hnonI := hrow
  · simp only [loadRows, List.mem_cons, List.not_mem_nil, or_false] at hload
    rw [decodeLoad, hf3]
    obtain rfl | rfl | rfl | rfl | rfl := hload <;> exact ⟨_, rfl, rfl⟩
  · simp only [opImmRows, List.mem_cons, List.not_mem_nil, or_false] at himm
    rw [decodeOpImm, hf3]
    obtain rfl | rfl | rfl | rfl | rfl | rfl | rfl | rfl | rfl := himm
    -- ADDI to ANDI by `funct3` alone, then the three shifts by `funct7` as well
    iterate 6 exact ⟨_, rfl, rfl⟩
    all_goals
      rw [hf7 rfl]
      exact ⟨_, rfl, rfl⟩
  · simp only [nonITypeRows, List.mem_cons, List.not_mem_nil, or_false] at hnonI
    rw [decodeStore, decodeReg, decodeBranch, hf3]
    obtain rfl | rfl | rfl | rfl | rfl | rfl | rfl := hnonI
    · exact ⟨_, rfl, rfl⟩
    iterate 5
      rw [hf7 rfl]
      exact ⟨_, rfl, rfl⟩
    · exact ⟨_, rfl, rfl⟩

end

end Sys2Proof

namespace Sys2Proof.Machine

theorem boolWord_decide (p : Prop) [Decidable p] : boolWord (decide p) = if p then 1#32 else 0#32 := by
  simp [boolWord]

/-- The one word below 1 is 0 (R103). -/
theorem boolWord_ult_one (a : Word) : boolWord (a.ult 1#32) = if a = 0#32 then 1#32 else 0#32 := by
  rw [← boolWord_decide]
  congr 1
  simp [BitVec.ult, BitVec.toNat_eq]

end Sys2Proof.Machine

namespace Sys2Proof.Claim

open Sys2Proof.Machine

/-- Settles O4. -/
theorem sampleWordsDecode : Obligations.SampleWordsDecode := by
  unfold Obligations.SampleWordsDecode
  decide

/-- Settles O7. -/
theorem encodeOfDecodeIsTheWord : Obligations.EncodeOfDecodeIsTheWord :=
  fun _ _ => encode_of_decodeWord

/-- Settles O5: a decoded word is an encoding, which matches its row; and two rows that one word matches have the mnemonic
of what it decodes to, which no two rows share. -/
theorem decoderIsTheOpcodeMap : Obligations.DecoderIsTheOpcodeMap := by
  refine fun w => ⟨fun i hdec => ?_, fun row hrow hmatch => decodeWord_of_row hrow hmatch,
    fun row hrow row' hrow' hmatch hmatch' => ?_⟩
  · obtain ⟨⟨row, hrow, hmnemonic, htier, hmatch⟩, -⟩ := matchesRow i
    rw [(encode_of_decodeWord hdec).1] at hmatch
    exact ⟨row, hrow, hmatch, hmnemonic, htier⟩
  · obtain ⟨i, hdec, hi⟩ := decodeWord_of_row hrow hmatch
    obtain ⟨i', hdec', hi'⟩ := decodeWord_of_row hrow' hmatch'
    cases hdec.symm.trans hdec'
    exact opcodeMap_mnemonic_injective row hrow row' hrow' (hi.symm.trans hi')

/-! ### The illegal words of R68

For each opcode, what the rows of the map have in the fields by which R68's table rejects a word. -/

/-- The first is the opcode of the word of all ones, the others those R68 names. -/
theorem opcodeMap_opField : ∀ row ∈ opcodeMap, opField row.pattern ∉
    [0b1111111#7, 0b1100111#7, 0b1101111#7, 0b0110111#7, 0b0010111#7, 0b0001111#7, 0b1110011#7] := by decide

theorem opcodeMap_load : ∀ row ∈ opcodeMap, opField row.pattern = 0b0000011#7 →
    funct3Field row.pattern ∉ [0b011#3, 0b110#3, 0b111#3] := by decide

theorem opcodeMap_slli : ∀ row ∈ opcodeMap, opField row.pattern = 0b0010011#7 → funct3Field row.pattern = 0b001#3 →
    row.mask = 0xFE00707F#32 ∧ funct7Field row.pattern = 0#7 := by decide

theorem opcodeMap_rightShift : ∀ row ∈ opcodeMap, opField row.pattern = 0b0010011#7 →
    funct3Field row.pattern = 0b101#3 →
    row.mask = 0xFE00707F#32 ∧ funct7Field row.pattern ∈ [0#7, 0b0100000#7] := by decide

theorem opcodeMap_store : ∀ row ∈ opcodeMap, opField row.pattern = 0b0100011#7 →
    funct3Field row.pattern = 0b010#3 := by decide

theorem opcodeMap_reg : ∀ row ∈ opcodeMap, opField row.pattern = 0b0110011#7 →
    row.mask = 0xFE00707F#32 ∧ funct3Field row.pattern ∉ [0b001#3, 0b011#3, 0b100#3, 0b101#3] ∧
    funct7Field row.pattern ∈ [0#7, 0b0100000#7] ∧
    (funct7Field row.pattern = 0b0100000#7 → funct3Field row.pattern = 0b000#3) := by decide

theorem opcodeMap_branch : ∀ row ∈ opcodeMap, opField row.pattern = 0b1100011#7 →
    funct3Field row.pattern = 0b000#3 := by decide

/-- Settles O8: a word that decodes matches a row, and each clause denies what the map's rows have in the fields their
masks cover. -/
theorem namedIllegalWordsAreRejected : Obligations.NamedIllegalWordsAreRejected := by
  intro w i hbad hdec
  obtain ⟨row, hrow, hmatch, -⟩ := (decoderIsTheOpcodeMap w).1 i hdec
  have hop : w.extractLsb' 0 7 = opField row.pattern := opField_of_row hrow hmatch
  have hf3 : w.extractLsb' 12 3 = funct3Field row.pattern := funct3Field_of_row hrow hmatch
  have hf7 : row.mask = 0xFE00707F#32 → w.extractLsb' 25 7 = funct7Field row.pattern := funct7Field_of_row hmatch
  have hlow : w.extractLsb' 0 2 = 0b11#2 := by
    rw [← (encode_of_decodeWord hdec).1]
    exact (matchesRow i).2
  rw [hop, hf3] at hbad
  rcases hbad with rfl | rfl | ⟨ho, h3⟩ | ⟨ho, h3, h7⟩ | ⟨ho, h3, h7⟩ | ⟨ho, h3⟩ | ⟨ho, h3⟩ | ⟨ho, h7⟩ | ⟨ho, h7, h3⟩ |
    ⟨ho, h3⟩ | ho | hend
  · exact absurd hlow (by decide)
  · exact opcodeMap_opField row hrow (hop ▸ List.mem_cons_self)
  · exact opcodeMap_load row hrow ho h3
  · obtain ⟨hmask, hrow7⟩ := opcodeMap_slli row hrow ho h3
    exact h7 ((hf7 hmask).trans hrow7)
  · obtain ⟨hmask, hrow7⟩ := opcodeMap_rightShift row hrow ho h3
    exact h7 (hf7 hmask ▸ hrow7)
  · exact h3 (opcodeMap_store row hrow ho)
  · obtain ⟨-, hrow3, -⟩ := opcodeMap_reg row hrow ho
    exact hrow3 h3
  · obtain ⟨hmask, -, hrow7, -⟩ := opcodeMap_reg row hrow ho
    exact h7 (hf7 hmask ▸ hrow7)
  · obtain ⟨hmask, -, -, hsub⟩ := opcodeMap_reg row hrow ho
    exact h3 (hsub ((hf7 hmask).symm.trans h7))
  · exact h3 (opcodeMap_branch row hrow ho)
  · exact opcodeMap_opField row hrow (List.mem_cons_of_mem _ ho)
  · exact hend hlow

/-! ### What the instructions of the expansions write, and where BEQ goes -/

section
variable (rd rs1 rs2 : Reg) (imm : BitVec 12) (s : State)

theorem addi_completesWriting : CompletesWriting (.addi rd rs1 imm) s rd (s.readReg rs1 + sext32 12 imm) :=
  completesWriting_of_retire rfl

theorem xori_completesWriting : CompletesWriting (.xori rd rs1 imm) s rd (s.readReg rs1 ^^^ sext32 12 imm) :=
  completesWriting_of_retire rfl

theorem sltiu_completesWriting :
    CompletesWriting (.sltiu rd rs1 imm) s rd (boolWord ((s.readReg rs1).ult (sext32 12 imm))) :=
  completesWriting_of_retire rfl

theorem sub_completesWriting : CompletesWriting (.sub rd rs1 rs2) s rd (s.readReg rs1 - s.readReg rs2) :=
  completesWriting_of_retire rfl

theorem slt_completesWriting :
    CompletesWriting (.slt rd rs1 rs2) s rd (if (s.readReg rs1).toInt < (s.readReg rs2).toInt then 1#32 else 0#32) := by
  rw [← boolWord_decide]
  exact completesWriting_of_retire rfl

variable {s}

theorem completesJumping_of_jump {i : Instr} {target : Word} (h : exec i s = .next (s.jump target)) :
    CompletesJumping i s target :=
  ⟨_, h, rfl, s.readReg_jump target, rfl, fun _ => rfl, rfl, rfl⟩

variable {rs1 rs2} {offset : BitVec 13}

/-- A BEQ on unequal registers is not taken (R157). -/
theorem beq_completesJumping_of_ne (h : s.readReg rs1 ≠ s.readReg rs2) :
    CompletesJumping (.beq rs1 rs2 offset) s (s.pc + 4#32) :=
  completesJumping_of_jump (if_neg h)

/-- A BEQ on equal registers goes to its target where that is aligned (R157). -/
theorem beq_completesJumping_of_eq (h : s.readReg rs1 = s.readReg rs2)
    (ha : (s.pc + sext32 13 offset).toNat % 4 = 0) :
    CompletesJumping (.beq rs1 rs2 offset) s (s.pc + sext32 13 offset) :=
  completesJumping_of_jump ((if_pos h).trans (if_pos ((aligned_iff _ 4).2 ha)))

end

/-! ### The pseudo-instructions (R72) -/

/-- Settles O57: each expansion is its instruction with an operand that is zero or a constant. -/
theorem pseudoInstructionsDoWhatTheyName : Obligations.PseudoInstructionsDoWhatTheyName := by
  intro rd rs imm offset s
  refine ⟨completesJumping_of_jump rfl, ?mv, ?li, ?not, ?seqz, ?neg, ?sltz, ?sgtz,
    beq_completesJumping_of_ne (rs2 := 0), beq_completesJumping_of_eq (rs2 := 0)⟩
  case mv =>
    have h := addi_completesWriting rd rs 0#12 s
    rwa [show sext32 12 0#12 = 0#32 from rfl, BitVec.add_zero] at h
  case li =>
    have h := addi_completesWriting rd 0 imm s
    rwa [s.readReg_zero, BitVec.zero_add] at h
  case not =>
    have h := xori_completesWriting rd rs (-1#12) s
    rwa [show sext32 12 (-1#12) = BitVec.allOnes 32 from rfl, BitVec.xor_allOnes] at h
  case seqz =>
    have h := sltiu_completesWriting rd rs 1#12 s
    rwa [show sext32 12 1#12 = 1#32 from rfl, boolWord_ult_one] at h
  case neg =>
    have h := sub_completesWriting rd 0 rs s
    rwa [s.readReg_zero, BitVec.zero_sub] at h
  case sltz => exact slt_completesWriting rd rs 0 s
  case sgtz => exact slt_completesWriting rd 0 rs s

end Sys2Proof.Claim
end

