-- ==== Sys2Proof/Proofs/Loads.lean ====
section
/-! The rules of spec/40_loads.md: the words of the I format as the statements write them, what a load raises, and the five
loads. -/

namespace Sys2Proof.Claim

open Sys2Proof.Machine

/-! ### The words of the I format (R60) -/

theorem regBits_eq_bitsOfReg (r : Reg) : regBits r = bitsOfReg r :=
  (BitVec.ofNat_toNat 5 (bitsOfReg r)).trans (BitVec.setWidth_eq _)

theorem iFormat_eq_encodeI (op : BitVec 7) (f3 : BitVec 3) (rd rs1 : Reg) (imm : BitVec 12) :
    imm ++ regBits rs1 ++ f3 ++ regBits rd ++ op = encodeI op f3 rd rs1 imm := by
  rw [regBits_eq_bitsOfReg, regBits_eq_bitsOfReg, encodeI]

/-- A word of the I format decodes to the instruction whose encoding has its opcode and `funct3`. -/
theorem decodeWord_iFormat {op : BitVec 7} {f3 : BitVec 3} {rd rs1 : Reg} {imm : BitVec 12} {i : Instr}
    (hencode : encode i = encodeI op f3 rd rs1 imm) (hwf : i.wellFormed = true) :
    decodeWord (imm ++ regBits rs1 ++ f3 ++ regBits rd ++ op) = .ok i := by
  rw [iFormat_eq_encodeI, ← hencode]
  exact decodeWord_encode hwf

/-! ### What a load raises (R35, R175, R176) and what it reads (R30) -/

theorem loadException_of_misaligned {s : State} {a : Word} {n : Nat} (hmis : a.toNat % n ≠ 0) :
    s.loadException a n = some (.loadAddressMisaligned a) := by
  simp [State.loadException, hmis]

theorem loadException_of_not_inDmem {s : State} {a : Word} {n : Nat} (ha : a.toNat % n = 0) (hout : ¬ inDmem s a n) :
    s.loadException a n = some (.loadAccessFault a) := by
  rw [← inDataMemory_iff_inDmem] at hout
  simp [State.loadException, ha, hout]

theorem memValue_one (s : State) (a : Word) : memValue s a 1 = (s.mem.byteAt a.toNat).toNat := rfl

theorem memValue_of_little {s : State} (hlittle : s.config.byteOrder = .little) (a : Word) (n : Nat) :
    memValue s a n = valueOfBytes s.config.byteOrder (bytesFrom s a.toNat n) := by
  rw [hlittle, memValue]

/-! ### The five loads (R90 to R95) -/

/-- An instruction that checks a load of `n` bytes raises by the load rule, whatever it writes when it completes (R90). -/
theorem loadRule_of_completesWriting {i : Instr} {s : State} {rd rs1 : Reg} {imm : BitVec 12} {n : Nat} {v : Word}
    (hi : exceptionOf i s = s.loadException (s.effectiveAddress rs1 imm) n)
    (hcompletes : (address s rs1 imm).toNat % n = 0 → inDmem s (address s rs1 imm) n →
      (n = 1 ∨ s.config.byteOrder = .little) → CompletesWriting i s rd v) :
    LoadRule i s rd rs1 imm n v := by
  rw [effectiveAddress_eq_address] at hi
  refine ⟨fun hmis => raises_of_exceptionOf ?_, fun ha hout => raises_of_exceptionOf ?_, hcompletes⟩
  · rw [hi, loadException_of_misaligned hmis]
  · rw [hi, loadException_of_not_inDmem ha hout]

/-- Settles O26: a byte is never misaligned, and its order does not matter. -/
theorem lbLoadsASignExtendedByte : Obligations.LbLoadsASignExtendedByte := by
  refine fun imm rs1 rd s => ⟨decodeWord_iFormat rfl rfl, loadRule_of_completesWriting rfl fun _ hin _ => ?_⟩
  rw [memValue_one, BitVec.ofNat_toNat, BitVec.setWidth_eq]
  exact lb_completesWriting rd hin

/-- Settles O27: the halfword in the configured order, which is little. -/
theorem lhLoadsASignExtendedHalfword : Obligations.LhLoadsASignExtendedHalfword := by
  refine fun imm rs1 rd s => ⟨decodeWord_iFormat rfl rfl, loadRule_of_completesWriting rfl fun ha hin horder => ?_⟩
  rw [memValue_of_little (horder.resolve_left (by decide))]
  exact lh_completesWriting rd ha hin

/-- Settles O28: the word in the configured order, which is little; the control signals are its rows of R121 and R124. -/
theorem lwLoadsAWord : Obligations.LwLoadsAWord := by
  refine fun imm rs1 rd s => ⟨decodeWord_iFormat rfl rfl, rfl, fun _ _ => rfl,
    loadRule_of_completesWriting rfl fun ha hin horder => ?_⟩
  rw [memValue_of_little (horder.resolve_left (by decide))]
  exact lw_completesWriting rd ha hin

/-- Settles O29: a byte is never misaligned, and its order does not matter. -/
theorem lbuLoadsAZeroExtendedByte : Obligations.LbuLoadsAZeroExtendedByte := by
  refine fun imm rs1 rd s => ⟨decodeWord_iFormat rfl rfl, loadRule_of_completesWriting rfl fun _ hin _ => ?_⟩
  rw [memValue_one]
  exact lbu_completesWriting rd hin

/-- Settles O30: the halfword in the configured order, which is little. -/
theorem lhuLoadsAZeroExtendedHalfword : Obligations.LhuLoadsAZeroExtendedHalfword := by
  refine fun imm rs1 rd s => ⟨decodeWord_iFormat rfl rfl, loadRule_of_completesWriting rfl fun ha hin horder => ?_⟩
  rw [memValue_of_little (horder.resolve_left (by decide))]
  exact lhu_completesWriting rd ha hin

end Sys2Proof.Claim
end

