-- ==== Sys2Proof/Proofs/OpImm.lean ====
section
/-! The rules of spec/41_op_imm.md: what the register-immediate instructions write, which is one operation on `x[rs1]` and the
sign-extended immediate. -/

namespace Sys2Proof.Claim

open Sys2Proof.Machine

/-! ### The sign-extended immediate (R6) -/

/-- Sign extension keeps the signed value. -/
theorem toInt_sext32 {n : Nat} (hn : n ≤ 32) (v : BitVec n) : (sext32 n v).toInt = v.toInt := by
  rw [sext32_eq_signExtend, BitVec.toInt_signExtend_of_le hn]

/-! ### The register-immediate instructions (R100 to R106) -/

/-- An instruction that runs `opImm f` writes `f` of `x[rs1]` and the sign-extended immediate, and nothing else (R100). -/
theorem opImm_completesWriting {i : Instr} {s : State} {rd rs1 : Reg} {imm : BitVec 12} (f : Word → Word → Word)
    (hi : exec i s = opImm f rd rs1 imm s) : CompletesWriting i s rd (f (s.readReg rs1) (sext32 12 imm)) :=
  completesWriting_of_retire hi

/-- Settles O31: the integer sum, taken modulo 2^32, is the sum of the words. -/
theorem addiAddsTheSignExtendedImmediate : Obligations.AddiAddsTheSignExtendedImmediate := by
  refine fun imm rs1 rd s => ⟨decodeWord_iFormat rfl rfl, ?_⟩
  rw [BitVec.ofInt_add, BitVec.ofInt_toInt]
  exact addi_completesWriting rd rs1 imm s

/-- Settles O32: the comparison of words is that of their signed values, which sign extension keeps. -/
theorem sltiComparesSigned : Obligations.SltiComparesSigned := by
  refine fun imm rs1 rd s => ⟨decodeWord_iFormat rfl rfl, ?_⟩
  rw [← toInt_sext32 (n := 12) (by decide), ← boolWord_decide]
  exact opImm_completesWriting (fun a b => boolWord (a.slt b)) rfl

/-- Settles O33: the comparison of words is that of their unsigned values. -/
theorem sltiuComparesUnsigned : Obligations.SltiuComparesUnsigned := by
  refine fun imm rs1 rd s => ⟨decodeWord_iFormat rfl rfl, ?_⟩
  rw [← boolWord_decide]
  exact sltiu_completesWriting rd rs1 imm s

/-- Settles O34: `exec` runs the operation of the rule itself. -/
theorem xoriFlipsByTheSignExtendedImmediate : Obligations.XoriFlipsByTheSignExtendedImmediate :=
  fun imm rs1 rd s => ⟨decodeWord_iFormat rfl rfl, xori_completesWriting rd rs1 imm s⟩

/-- Settles O35: `exec` runs the operation of the rule itself. -/
theorem oriSetsTheSignExtendedImmediate : Obligations.OriSetsTheSignExtendedImmediate :=
  fun _ _ _ _ => ⟨decodeWord_iFormat rfl rfl, opImm_completesWriting (fun a b => a ||| b) rfl⟩

/-- Settles O36: `exec` runs the operation of the rule itself. -/
theorem andiMasksByTheSignExtendedImmediate : Obligations.AndiMasksByTheSignExtendedImmediate :=
  fun _ _ _ _ => ⟨decodeWord_iFormat rfl rfl, opImm_completesWriting (fun a b => a &&& b) rfl⟩

end Sys2Proof.Claim
end

