-- ==== Sys2Proof/Proofs/ShiftImm.lean ====
section
/-! The rules of spec/42_shift_imm.md: the words of the shifts by an immediate, and what they write, which is a multiple or a
quotient of `x[rs1]` by a power of two. -/

namespace Sys2Proof.Claim

open Sys2Proof.Machine

/-! ### The words of the shift format (R61) and what they share (R110) -/

/-- A word of the shift format decodes to the instruction whose encoding has its `funct7` and `funct3`. -/
theorem decodeWord_shiftFormat {f7 : BitVec 7} {f3 : BitVec 3} {rd rs1 : Reg} {shamt : BitVec 5} {i : Instr}
    (hencode : encode i = encodeShift f7 f3 rd rs1 shamt) (hwf : i.wellFormed = true) :
    decodeWord (f7 ++ shamt ++ regBits rs1 ++ f3 ++ regBits rd ++ 0b0010011#7) = .ok i := by
  rw [regBits_eq_bitsOfReg, regBits_eq_bitsOfReg, ← encodeShift, ← hencode]
  exact decodeWord_encode hwf

/-- An instruction that runs `shiftImm f` writes `f` of `x[rs1]` and the shift amount, and nothing else. -/
theorem shiftImm_completesWriting {i : Instr} {s : State} {rd rs1 : Reg} {shamt : BitVec 5} (f : Word → Nat → Word)
    (hi : exec i s = shiftImm f rd rs1 shamt s) : CompletesWriting i s rd (f (s.readReg rs1) shamt.toNat) :=
  completesWriting_of_retire hi

/-! ### The shifts as arithmetic on the values of words -/

/-- A shift to the left multiplies modulo 2^32. -/
theorem shiftLeft_eq_ofNat_mul (a : Word) (n : Nat) : a <<< n = BitVec.ofNat 32 (a.toNat * 2 ^ n) := by
  rw [← Nat.shiftLeft_eq]
  rfl

/-- A shift to the right in which zeros enter divides the unsigned value, rounding down. -/
theorem ushiftRight_eq_ofNat_div (a : Word) (n : Nat) : a >>> n = BitVec.ofNat 32 (a.toNat / 2 ^ n) := by
  rw [← Nat.shiftRight_eq_div_pow, ← BitVec.toNat_ushiftRight, BitVec.ofNat_toNat, BitVec.setWidth_eq]

/-- A shift to the right in which the sign enters divides the signed value, rounding toward minus infinity. -/
theorem sshiftRight_eq_ofInt_fdiv (a : Word) (n : Nat) :
    a.sshiftRight n = BitVec.ofInt 32 (Int.fdiv a.toInt (2 ^ n)) := by
  rw [Int.fdiv_eq_ediv_of_nonneg _ (by positivity), BitVec.sshiftRight, Int.shiftRight_eq_div_pow]
  norm_cast

/-! ### The three shifts (R111 to R113) -/

/-- Settles O37: the shift to the left is the multiplication. -/
theorem slliMultipliesByAPowerOfTwo : Obligations.SlliMultipliesByAPowerOfTwo := by
  refine fun shamt rs1 rd s => ⟨decodeWord_shiftFormat rfl rfl, ?_⟩
  rw [← shiftLeft_eq_ofNat_mul]
  exact shiftImm_completesWriting (fun a n => a <<< n) rfl

/-- Settles O38: the shift to the right that enters zeros is the unsigned division. -/
theorem srliDividesUnsignedByAPowerOfTwo : Obligations.SrliDividesUnsignedByAPowerOfTwo := by
  refine fun shamt rs1 rd s => ⟨decodeWord_shiftFormat rfl rfl, ?_⟩
  rw [← ushiftRight_eq_ofNat_div]
  exact shiftImm_completesWriting (fun a n => a >>> n) rfl

/-- Settles O39: the shift to the right that enters the sign is the signed division. -/
theorem sraiDividesSignedByAPowerOfTwo : Obligations.SraiDividesSignedByAPowerOfTwo := by
  refine fun shamt rs1 rd s => ⟨decodeWord_shiftFormat rfl rfl, ?_⟩
  rw [← sshiftRight_eq_ofInt_fdiv]
  exact shiftImm_completesWriting (fun a n => a.sshiftRight n) rfl

end Sys2Proof.Claim
end

