-- ==== Sys2Proof/Proofs/ControlUnit.lean ====
section
/-! The rules of spec/43_control_unit_datapath.md: the tables of the two decoders, the ALU and its flags, and what one cycle
of the datapath leaves under each row of the main decoder's table. -/

namespace Sys2Proof.Machine

/-! ### The ALU's operations (R125) -/

section
variable (ctrl : BitVec 3) (a b : Word)

@[simp] theorem aluResult_add : aluResult aluAdd a b = a + b := rfl
@[simp] theorem aluResult_subtract : aluResult aluSubtract a b = a - b := rfl
@[simp] theorem aluResult_and : aluResult aluAnd a b = a &&& b := rfl
@[simp] theorem aluResult_or : aluResult aluOr a b = a ||| b := rfl
@[simp] theorem aluResult_setLessThan : aluResult aluSetLessThan a b = boolWord (a.slt b) := rfl

/-- The difference of words is that of their unsigned values modulo 2^32. -/
theorem sub_eq_ofInt : a - b = BitVec.ofInt 32 ((a.toNat : Int) - b.toNat) := by
  rw [Int.sub_eq_add_neg, BitVec.ofInt_add, BitVec.ofInt_neg, BitVec.ofInt_natCast, BitVec.ofInt_natCast,
    BitVec.ofNat_toNat, BitVec.ofNat_toNat, BitVec.setWidth_eq, BitVec.setWidth_eq, BitVec.sub_eq_add_neg]

/-! ### The flags (R128) -/

theorem flagZ_iff : flagZ ctrl a b = true ↔ aluResult ctrl a b = 0#32 := beq_iff_eq

theorem flagN_iff : flagN ctrl a b = true ↔ (aluResult ctrl a b).toInt < 0 := by
  rw [flagN, BitVec.msb_eq_toInt, decide_eq_true_iff]

/-- The carry out of the adder is bit 32 of the sum. -/
theorem msb_adder (carryIn : Bool) :
    (adder a b carryIn).msb = true ↔ 2 ^ 32 ≤ a.toNat + b.toNat + carryIn.toNat := by
  have hcarry : (if carryIn then 1#33 else 0#33).toNat = carryIn.toNat := by cases carryIn <;> rfl
  have ha := a.isLt
  have hb := b.isLt
  have hc := carryIn.toNat_lt
  rw [BitVec.msb_eq_decide, decide_eq_true_iff, adder, BitVec.toNat_add, BitVec.toNat_add, hcarry]
  simp only [BitVec.truncate_eq_setWidth, BitVec.toNat_setWidth]
  omega

theorem flagC_add_iff : flagC aluAdd a b = true ↔ 2 ^ 32 ≤ a.toNat + b.toNat := msb_adder a b false

/-- With `not_b` and a carry in, the adder carries out where nothing has to be borrowed (log 14). -/
theorem flagC_subtract_iff : flagC aluSubtract a b = true ↔ b.toNat ≤ a.toNat := by
  have h := msb_adder a (~~~b) true
  rw [BitVec.toNat_not, Bool.toNat_true] at h
  have hb := b.isLt
  exact h.trans (by omega)

theorem flagV_add : flagV aluAdd a b = a.saddOverflow b := (BitVec.saddOverflow_eq a b).symm

theorem flagV_subtract : flagV aluSubtract a b = a.ssubOverflow b := by
  rw [BitVec.ssubOverflow_eq]
  change (a.msb != b.msb && (a - b).msb != a.msb) = _
  cases a.msb <;> cases b.msb <;> cases (a - b).msb <;> rfl

/-- Signed overflow is a sum outside the signed range. -/
theorem flagV_add_iff : flagV aluAdd a b = true ↔ a.toInt + b.toInt < -2 ^ 31 ∨ 2 ^ 31 ≤ a.toInt + b.toInt := by
  rw [flagV_add, BitVec.saddOverflow, Bool.or_eq_true, decide_eq_true_iff, decide_eq_true_iff, or_comm]

/-- Signed overflow is a difference outside the signed range. -/
theorem flagV_subtract_iff :
    flagV aluSubtract a b = true ↔ a.toInt - b.toInt < -2 ^ 31 ∨ 2 ^ 31 ≤ a.toInt - b.toInt := by
  rw [flagV_subtract, BitVec.ssubOverflow, Bool.or_eq_true, decide_eq_true_iff, decide_eq_true_iff, or_comm]

end

/-! ### The rows of the main decoder's table (R121) -/

/-- The row of LW. -/
def loadRow : ControlRow := ⟨true, some 0b00#2, true, false, some true, false, 0b00#2⟩
/-- The row of SW. -/
def storeRow : ControlRow := ⟨false, some 0b01#2, true, true, none, false, 0b00#2⟩
/-- The row of the R-type instructions. -/
def regRow : ControlRow := ⟨true, none, false, false, some false, false, 0b10#2⟩
/-- The row of BEQ. -/
def branchRow : ControlRow := ⟨false, some 0b10#2, false, false, none, true, 0b01#2⟩

theorem mainDecoder_load : mainDecoder 0b0000011#7 = some loadRow := rfl
theorem mainDecoder_store : mainDecoder 0b0100011#7 = some storeRow := rfl
theorem mainDecoder_reg : mainDecoder 0b0110011#7 = some regRow := rfl
theorem mainDecoder_branch : mainDecoder 0b1100011#7 = some branchRow := rfl

/-- No other opcode has a row (N5). -/
theorem mainDecoder_of_not_mem {op : BitVec 7} (h : op ∉ [0b0000011#7, 0b0100011#7, 0b0110011#7, 0b1100011#7]) :
    mainDecoder op = none := by
  simp only [List.mem_cons, List.not_mem_nil, or_false, not_or] at h
  obtain ⟨hload, hstore, hreg, hbranch⟩ := h
  rw [mainDecoder, if_neg hload, if_neg hstore, if_neg hreg, if_neg hbranch]

/-- The opcode of a word selects the row. -/
theorem row_of_opField {w : Word} {op : BitVec 7} {row row' : ControlRow} (hop : opField w = op)
    (hop' : mainDecoder op = some row') (h : mainDecoder (w.extractLsb' 0 7) = some row) : row = row' := by
  subst hop
  exact Option.some.inj (h.symm.trans hop')

/-! ### The ALU decoder (R124) -/

section
variable (f3 : BitVec 3) (op5 f7 : Bool)

theorem aluDecoder_address : aluDecoder 0b00#2 f3 op5 f7 = some aluAdd := rfl
theorem aluDecoder_compare : aluDecoder 0b01#2 f3 op5 f7 = some aluSubtract := rfl
theorem aluDecoder_unused : aluDecoder 0b11#2 f3 op5 f7 = none := rfl

/-- An R-type word with funct7 bit 5 set subtracts; a register-immediate word adds whatever its bit 30 is (R127). -/
theorem aluDecoder_addOrSubtract :
    aluDecoder 0b10#2 0b000#3 op5 f7 = if op5 = true ∧ f7 = true then some aluSubtract else some aluAdd := by
  simp [aluDecoder]

theorem aluDecoder_setLessThan : aluDecoder 0b10#2 0b010#3 op5 f7 = some aluSetLessThan := rfl
theorem aluDecoder_or : aluDecoder 0b10#2 0b110#3 op5 f7 = some aluOr := rfl
theorem aluDecoder_and : aluDecoder 0b10#2 0b111#3 op5 f7 = some aluAnd := rfl

/-- The table has no row for these `funct3` (N6). -/
theorem aluDecoder_of_mem {f3 : BitVec 3} (h : f3 ∈ [0b001#3, 0b011#3, 0b100#3, 0b101#3]) :
    aluDecoder 0b10#2 f3 op5 f7 = none := by
  simp only [List.mem_cons, List.not_mem_nil, or_false] at h
  obtain rfl | rfl | rfl | rfl := h <;> rfl

end

/-! ### One cycle of the datapath (R120, R126), by what the signals switch on -/

section
variable {c : Controls} {ctrl : BitVec 3} {w : Word} {s : State}

/-- With RegWrite alone the cycle retires the written-back value. -/
theorem datapathCycle_of_regWrite (hreg : c.regWrite = true) (hmem : c.memWrite = false) (hbranch : c.branch = false) :
    datapathCycle c ctrl w s =
      s.retire (rdField w) (writeBack c s (aluResult ctrl (s.readReg (rs1Field w)) (operandB c w s))) := by
  simp [datapathCycle, signals, hreg, hmem, hbranch, State.retire, State.advance]

/-- With MemWrite alone the cycle stores the second register at the ALU result. -/
theorem datapathCycle_of_memWrite (hreg : c.regWrite = false) (hmem : c.memWrite = true) (hbranch : c.branch = false) :
    datapathCycle c ctrl w s =
      (s.storeWord (aluResult ctrl (s.readReg (rs1Field w)) (operandB c w s)) (s.readReg (rs2Field w))).advance := by
  simp [datapathCycle, signals, hreg, hmem, hbranch, State.advance]

/-- With Branch alone the cycle jumps, by the immediate where the ALU result is zero. -/
theorem datapathCycle_of_branch (hreg : c.regWrite = false) (hmem : c.memWrite = false) (hbranch : c.branch = true) :
    datapathCycle c ctrl w s =
      s.jump (if aluResult ctrl (s.readReg (rs1Field w)) (operandB c w s) = 0#32 then
        s.pc + extendImmediate c.immSrc w else s.pc + 4#32) := by
  simp [datapathCycle, signals, hreg, hmem, hbranch, flagZ_iff]

end

/-! ### One cycle under each row, on a word of the row's format -/

/-- What the control unit may drive under a row for the word `w`: signals the row allows, its don't-cares at any value
(R133), and the ALU decoder's code. -/
structure ControlRow.Drives (row : ControlRow) (c : Controls) (ctrl : BitVec 3) (w : Word) : Prop where
  allowed : row.allows c = true
  code : aluDecoder c.aluOp (w.extractLsb' 12 3) (w.getLsbD 5) (w.getLsbD 30) = some ctrl

theorem ControlRow.allows_iff (row : ControlRow) (c : Controls) :
    row.allows c = true ↔ c.regWrite = row.regWrite ∧ (row.immSrc = none ∨ row.immSrc = some c.immSrc) ∧
      c.aluSrc = row.aluSrc ∧ c.memWrite = row.memWrite ∧
      (row.resultSrc = none ∨ row.resultSrc = some c.resultSrc) ∧ c.branch = row.branch ∧ c.aluOp = row.aluOp := by
  simp [ControlRow.allows, and_assoc]

theorem getLsbD_five_eq_opField (w : Word) : w.getLsbD 5 = (opField w).getLsbD 5 := by
  simp [opField]

theorem getLsbD_thirty_eq_funct7Field (w : Word) : w.getLsbD 30 = (funct7Field w).getLsbD 5 := by
  simp [funct7Field]

section
variable {c : Controls} {ctrl code : BitVec 3} {f3 : BitVec 3} {f7 op : BitVec 7} {rd rs1 rs2 : Reg} {imm : BitVec 12}
  {offset : BitVec 13} (s : State)

/-- The row of LW: the word at the effective address is retired. -/
theorem datapathCycle_of_loadRow (h : loadRow.Drives c ctrl (encodeI op f3 rd rs1 imm)) :
    datapathCycle c ctrl (encodeI op f3 rd rs1 imm) s =
      s.retire rd (s.mem.wordAt s.config.byteOrder (s.effectiveAddress rs1 imm).toNat) := by
  obtain ⟨hallowed, hcode⟩ := h
  simp only [ControlRow.allows_iff, loadRow, reduceCtorEq, false_or, Option.some.injEq] at hallowed
  obtain ⟨hreg, himm, hsrc, hmem, hresult, hbranch, hop⟩ := hallowed
  rw [hop, aluDecoder_address] at hcode
  cases hcode
  rw [datapathCycle_of_regWrite hreg hmem hbranch]
  simp [writeBack, ← hresult, operandB, hsrc, extendImmediate, ← himm, State.effectiveAddress, immOperand]

/-- The row of SW: the second register is stored at the effective address. -/
theorem datapathCycle_of_storeRow (h : storeRow.Drives c ctrl (encodeS f3 rs2 rs1 imm)) :
    datapathCycle c ctrl (encodeS f3 rs2 rs1 imm) s =
      (s.storeWord (s.effectiveAddress rs1 imm) (s.readReg rs2)).advance := by
  obtain ⟨hallowed, hcode⟩ := h
  simp only [ControlRow.allows_iff, storeRow, reduceCtorEq, false_or, true_or, Option.some.injEq] at hallowed
  obtain ⟨hreg, himm, hsrc, hmem, -, hbranch, hop⟩ := hallowed
  rw [hop, aluDecoder_address] at hcode
  cases hcode
  rw [datapathCycle_of_memWrite hreg hmem hbranch]
  simp [operandB, hsrc, extendImmediate, ← himm, State.effectiveAddress, immOperand]

/-- The row of BEQ: the difference is zero where the registers are equal. -/
theorem datapathCycle_of_branchRow (h : branchRow.Drives c ctrl (encodeB f3 rs1 rs2 offset))
    (heven : evenOffset offset = true) :
    datapathCycle c ctrl (encodeB f3 rs1 rs2 offset) s =
      s.jump (if s.readReg rs1 = s.readReg rs2 then s.branchTarget offset else s.pc + 4#32) := by
  obtain ⟨hallowed, hcode⟩ := h
  simp only [ControlRow.allows_iff, branchRow, reduceCtorEq, false_or, true_or, Option.some.injEq] at hallowed
  obtain ⟨hreg, himm, hsrc, hmem, -, hbranch, hop⟩ := hallowed
  rw [hop, aluDecoder_compare] at hcode
  cases hcode
  rw [datapathCycle_of_branch hreg hmem hbranch]
  simp [operandB, hsrc, extendImmediate, ← himm, immBField_encodeB _ _ _ _ heven, State.branchTarget,
    BitVec.sub_eq_iff_eq_add]

/-- The R-type row: the ALU's operation on the two registers is retired. -/
theorem datapathCycle_of_regRow (h : regRow.Drives c ctrl (encodeR f7 f3 rd rs1 rs2))
    (hcode : aluDecoder 0b10#2 f3 true (f7.getLsbD 5) = some code) :
    datapathCycle c ctrl (encodeR f7 f3 rd rs1 rs2) s =
      s.retire rd (aluResult code (s.readReg rs1) (s.readReg rs2)) := by
  obtain ⟨hallowed, hcode'⟩ := h
  simp only [ControlRow.allows_iff, regRow, reduceCtorEq, false_or, true_or, Option.some.injEq] at hallowed
  obtain ⟨hreg, -, hsrc, hmem, hresult, hbranch, hop⟩ := hallowed
  rw [hop, ← funct3Field, funct3Field_encodeR, getLsbD_five_eq_opField, opField_encodeR, getLsbD_thirty_eq_funct7Field,
    funct7Field_encodeR] at hcode'
  cases hcode.symm.trans hcode'
  rw [datapathCycle_of_regWrite hreg hmem hbranch]
  simp [writeBack, ← hresult, operandB, hsrc]

/-- The textbook's row (R127, log 15): the ALU's operation on the register and the immediate is retired. -/
theorem datapathCycle_of_textbookOpImmRow (h : textbookOpImmRow.Drives c ctrl (encodeI 0b0010011#7 f3 rd rs1 imm))
    (hcode : ∀ f7, aluDecoder 0b10#2 f3 false f7 = some code) :
    datapathCycle c ctrl (encodeI 0b0010011#7 f3 rd rs1 imm) s =
      s.retire rd (aluResult code (s.readReg rs1) (immOperand imm)) := by
  obtain ⟨hallowed, hcode'⟩ := h
  simp only [ControlRow.allows_iff, textbookOpImmRow, reduceCtorEq, false_or, Option.some.injEq] at hallowed
  obtain ⟨hreg, himm, hsrc, hmem, hresult, hbranch, hop⟩ := hallowed
  rw [hop, ← funct3Field, funct3Field_encodeI, getLsbD_five_eq_opField, opField_encodeI] at hcode'
  cases (hcode _).symm.trans hcode'
  rw [datapathCycle_of_regWrite hreg hmem hbranch]
  simp [writeBack, ← hresult, operandB, hsrc, extendImmediate, ← himm, immOperand]

end

/-! ### Instructions that raise nothing -/

/-- An instruction that leaves the machine running has raised nothing. -/
theorem exceptionOf_eq_none_of_running {i : Instr} {s t : State} (h : exec i s = .next t) (hrun : t.status = .running) :
    exceptionOf i s = none := by
  rcases exec_cases i s t h with ⟨e, -, rfl⟩ | ⟨hnone, -⟩
  · cases hrun
  · exact hnone

/-- A SW that raises nothing stores its word (R151). -/
theorem execSw_completes {rs2 rs1 : Reg} {imm : BitVec 12} {s : State}
    (h : s.storeException (s.effectiveAddress rs1 imm) 4 = none) :
    execSw rs2 rs1 imm s = .next (s.storeWord (s.effectiveAddress rs1 imm) (s.readReg rs2)).advance := by
  simp only [execSw, h]

/-- A BEQ that raises nothing goes to its target where the registers are equal (R157). -/
theorem execBeq_completes {rs1 rs2 : Reg} {offset : BitVec 13} {s : State}
    (h : exceptionOf (.beq rs1 rs2 offset) s = none) :
    execBeq rs1 rs2 offset s =
      .next (s.jump (if s.readReg rs1 = s.readReg rs2 then s.branchTarget offset else s.pc + 4#32)) := by
  by_cases heq : s.readReg rs1 = s.readReg rs2
  · have ha : (s.branchTarget offset).toNat % 4 = 0 := by
      by_contra hmis
      simp [exceptionOf, heq, hmis] at h
    rw [execBeq, if_pos heq, if_pos ((aligned_iff _ 4).2 ha), if_pos heq]
  · rw [execBeq, if_neg heq, if_neg heq, State.advance]

end Sys2Proof.Machine

namespace Sys2Proof.Claim

open Sys2Proof.Machine

/-- Settles O51. -/
theorem mainDecoderHasTheFourRows : Obligations.MainDecoderHasTheFourRows :=
  ⟨mainDecoder_load, mainDecoder_store, mainDecoder_reg, mainDecoder_branch, fun _ => mainDecoder_of_not_mem⟩

/-- Settles O52. -/
theorem aluDecoderHasTheSevenRows : Obligations.AluDecoderHasTheSevenRows := by
  refine fun f3 op5 f7 => ⟨aluDecoder_address f3 op5 f7, aluDecoder_compare f3 op5 f7, aluDecoder_unused f3 op5 f7,
    ?_, ?_, ?_, ?_, aluDecoder_of_mem op5 f7⟩
  · rintro rfl
    exact aluDecoder_addOrSubtract op5 f7
  · rintro rfl
    exact aluDecoder_setLessThan op5 f7
  · rintro rfl
    exact aluDecoder_or op5 f7
  · rintro rfl
    exact aluDecoder_and op5 f7

/-- Settles O53. -/
theorem aluComputesTheFiveOperations : Obligations.AluComputesTheFiveOperations :=
  fun a b => ⟨aluResult_add a b, (aluResult_subtract a b).trans (sub_eq_ofInt a b), aluResult_and a b,
    aluResult_or a b, (aluResult_setLessThan a b).trans (boolWord_decide _)⟩

/-- Settles O54. -/
theorem flagsSayWhatTheAdderDid : Obligations.FlagsSayWhatTheAdderDid :=
  fun ctrl a b => ⟨flagZ_iff ctrl a b, flagN_iff ctrl a b, flagC_add_iff a b, flagC_subtract_iff a b,
    flagV_add_iff a b, flagV_subtract_iff a b⟩

/-- Settles O55: under its row the cycle leaves what each instruction leaves when it raises nothing. -/
theorem datapathExecutesTheDocumentedInstructions : Obligations.DatapathExecutesTheDocumentedInstructions := by
  intro w i s t row c ctrl hdec hname hrow hallowed hcode _ hexec hrun
  obtain ⟨rfl, hwf⟩ := encode_of_decodeWord hdec
  have hnone := exceptionOf_eq_none_of_running hexec hrun
  cases i with
  | lw rd rs1 imm =>
    obtain rfl := row_of_opField (opField_encodeI ..) mainDecoder_load hrow
    cases (load_completes 4 (fun m o a => m.wordAt o a) rd rs1 imm s hnone).symm.trans hexec
    exact datapathCycle_of_loadRow s ⟨hallowed, hcode⟩
  | sw rs2 rs1 imm =>
    obtain rfl := row_of_opField (opField_encodeS ..) mainDecoder_store hrow
    cases (execSw_completes hnone).symm.trans hexec
    exact datapathCycle_of_storeRow s ⟨hallowed, hcode⟩
  | add rd rs1 rs2 | sub rd rs1 rs2 | slt rd rs1 rs2 | or rd rs1 rs2 | and rd rs1 rs2 =>
    obtain rfl := row_of_opField (opField_encodeR ..) mainDecoder_reg hrow
    cases hexec
    exact datapathCycle_of_regRow s ⟨hallowed, hcode⟩ rfl
  | beq rs1 rs2 offset =>
    obtain rfl := row_of_opField (opField_encodeB ..) mainDecoder_branch hrow
    cases (execBeq_completes hnone).symm.trans hexec
    exact datapathCycle_of_branchRow s ⟨hallowed, hcode⟩ hwf
  | _ => simp [mnemonicOf] at hname

/-- Settles O56: op bit 5 is 0, so `funct3` alone selects the operation. -/
theorem textbookRowExecutesFourImmediates : Obligations.TextbookRowExecutesFourImmediates := by
  intro w i s t c ctrl hdec hname hallowed hcode hexec
  obtain ⟨rfl, -⟩ := encode_of_decodeWord hdec
  cases i with
  | addi rd rs1 imm | slti rd rs1 imm | ori rd rs1 imm | andi rd rs1 imm =>
    cases hexec
    exact datapathCycle_of_textbookOpImmRow s ⟨hallowed, hcode⟩ (fun _ => rfl)
  | _ => simp [mnemonicOf] at hname

end Sys2Proof.Claim
end

