-- ==== Sys2Proof/Proofs/NonIType.lean ====
section
/-! The rules of spec/44_non_i_type.md: the words of the S, R and B formats as the statements write them, what SW stores or
raises, what the register-register instructions write, and where BEQ goes. -/

namespace Sys2Proof.Claim

open Sys2Proof.Machine

/-! ### The words of the S, R and B formats (R62 to R65) -/

/-- The S format splits the immediate into the two pieces the rule joins (R63). -/
theorem sFormat_eq_encodeS (hi : BitVec 7) (lo : BitVec 5) (f3 : BitVec 3) (rs2 rs1 : Reg) :
    hi ++ regBits rs2 ++ regBits rs1 ++ f3 ++ lo ++ 0b0100011#7 = encodeS f3 rs2 rs1 (hi ++ lo) := by
  rw [encodeS, BitVec.extractLsb'_append_eq_left, BitVec.extractLsb'_append_eq_right, regBits_eq_bitsOfReg,
    regBits_eq_bitsOfReg]

/-- The B format splits the offset into the four pieces the rule joins above a last bit 0 (R64, R65). -/
theorem bFormat_eq_encodeB (b12 b11 : BitVec 1) (b10 : BitVec 6) (b4 : BitVec 4) (f3 : BitVec 3) (rs1 rs2 : Reg) :
    b12 ++ b10 ++ regBits rs2 ++ regBits rs1 ++ f3 ++ b4 ++ b11 ++ 0b1100011#7 =
      encodeB f3 rs1 rs2 (b12 ++ b11 ++ b10 ++ b4 ++ 0#1) := by
  have h12 : (b12 ++ b11 ++ b10 ++ b4 ++ 0#1).extractLsb' 12 1 = b12 := by
    iterate 3 rw [BitVec.extractLsb'_append_eq_of_le (by decide)]
    exact BitVec.extractLsb'_append_eq_left
  have h11 : (b12 ++ b11 ++ b10 ++ b4 ++ 0#1).extractLsb' 11 1 = b11 := by
    iterate 3 rw [BitVec.extractLsb'_append_eq_of_le (by decide)]
    exact BitVec.extractLsb'_append_eq_right
  have h10 : (b12 ++ b11 ++ b10 ++ b4 ++ 0#1).extractLsb' 5 6 = b10 := by
    iterate 2 rw [BitVec.extractLsb'_append_eq_of_le (by decide)]
    exact BitVec.extractLsb'_append_eq_right
  have h4 : (b12 ++ b11 ++ b10 ++ b4 ++ 0#1).extractLsb' 1 4 = b4 := by
    rw [BitVec.extractLsb'_append_eq_of_le (by decide)]
    exact BitVec.extractLsb'_append_eq_right
  rw [encodeB, h12, h11, h10, h4, regBits_eq_bitsOfReg, regBits_eq_bitsOfReg]

/-- An offset whose last bit is 0 is even. -/
theorem evenOffset_append_zero (high : BitVec 12) : evenOffset (high ++ 0#1) = true := by
  rw [evenOffset, BitVec.getLsbD_append]
  rfl

/-- A word of the R format decodes to the instruction whose encoding has its `funct7` and `funct3`. -/
theorem decodeWord_rFormat {f7 : BitVec 7} {f3 : BitVec 3} {rd rs1 rs2 : Reg} {i : Instr}
    (hencode : encode i = encodeR f7 f3 rd rs1 rs2) (hwf : i.wellFormed = true) :
    decodeWord (f7 ++ regBits rs2 ++ regBits rs1 ++ f3 ++ regBits rd ++ 0b0110011#7) = .ok i := by
  rw [regBits_eq_bitsOfReg, regBits_eq_bitsOfReg, regBits_eq_bitsOfReg, ← encodeR, ← hencode]
  exact decodeWord_encode hwf

/-! ### SW (R151) -/

theorem storeException_of_misaligned {s : State} {a : Word} {n : Nat} (hmis : a.toNat % n ≠ 0) :
    s.storeException a n = some (.storeAddressMisaligned a) := by
  simp [State.storeException, hmis]

theorem storeException_of_not_inDmem {s : State} {a : Word} {n : Nat} (ha : a.toNat % n = 0) (hout : ¬ inDmem s a n) :
    s.storeException a n = some (.storeAccessFault a) := by
  rw [← inDataMemory_iff_inDmem] at hout
  simp [State.storeException, ha, hout]

/-- A SW raises what the check of its store answers (R35, R40). -/
theorem sw_raises {rs2 rs1 : Reg} {imm : BitVec 12} {s : State} {e : Exception}
    (h : s.storeException (address s rs1 imm) 4 = some e) : Raises (.sw rs2 rs1 imm) s e := by
  rw [← effectiveAddress_eq_address] at h
  exact raises_of_exceptionOf h

/-- Settles O40: alignment is checked before the range, and with the switch of R45 off nothing else is. -/
theorem swStoresAWord : Obligations.SwStoresAWord := by
  refine fun hi lo rs2 rs1 s => ⟨?_, mainDecoder_store, aluDecoder_address _, fun hmis => ?_, fun ha hout => ?_,
    fun ha hin _ hoff => ?_⟩
  · rw [sFormat_eq_encodeS]
    exact decodeWord_encode (i := .sw rs2 rs1 (hi ++ lo)) rfl
  · exact sw_raises (storeException_of_misaligned hmis)
  · exact sw_raises (storeException_of_not_inDmem ha hout)
  · exact sw_completesStoring (storeException_eq_none_of_inDmem hoff ha hin)

/-! ### The register-register instructions (R150, R152 to R156) -/

/-- An instruction that runs `regReg f` writes `f` of `x[rs1]` and `x[rs2]`, and nothing else (R150). -/
theorem regReg_completesWriting {i : Instr} {s : State} {rd rs1 rs2 : Reg} (f : Word → Word → Word)
    (hi : exec i s = regReg f rd rs1 rs2 s) : CompletesWriting i s rd (f (s.readReg rs1) (s.readReg rs2)) :=
  completesWriting_of_retire hi

/-- Settles O41: the integer sum, taken modulo 2^32, is the sum of the words. -/
theorem addAddsModulo : Obligations.AddAddsModulo := by
  refine fun rs2 rs1 rd s => ⟨decodeWord_rFormat rfl rfl, mainDecoder_reg, ⟨aluDecoder_addOrSubtract false false,
    aluDecoder_addOrSubtract false true, aluDecoder_addOrSubtract true false⟩, ?_⟩
  rw [BitVec.ofInt_add, BitVec.ofInt_toInt, BitVec.ofInt_toInt]
  exact regReg_completesWriting (fun a b => a + b) rfl

/-- Settles O42: the integer difference, taken modulo 2^32, is the difference of the words. -/
theorem subSubtractsModulo : Obligations.SubSubtractsModulo := by
  refine fun rs2 rs1 rd s => ⟨decodeWord_rFormat rfl rfl, aluDecoder_addOrSubtract true true, ?_⟩
  rw [Int.sub_eq_add_neg, BitVec.ofInt_add, BitVec.ofInt_neg, BitVec.ofInt_toInt, BitVec.ofInt_toInt,
    ← BitVec.sub_eq_add_neg]
  exact sub_completesWriting rd rs1 rs2 s

/-- Settles O43: the comparison of words is that of their signed values. -/
theorem sltComparesSigned : Obligations.SltComparesSigned :=
  fun rs2 rs1 rd s => ⟨decodeWord_rFormat rfl rfl, aluDecoder_setLessThan, slt_completesWriting rd rs1 rs2 s⟩

/-- Settles O44: `exec` runs the operation of the rule itself. -/
theorem orJoinsBits : Obligations.OrJoinsBits :=
  fun _ _ _ _ => ⟨decodeWord_rFormat rfl rfl, aluDecoder_or, regReg_completesWriting (fun a b => a ||| b) rfl⟩

/-- Settles O45: `exec` runs the operation of the rule itself. -/
theorem andKeepsCommonBits : Obligations.AndKeepsCommonBits :=
  fun _ _ _ _ => ⟨decodeWord_rFormat rfl rfl, aluDecoder_and, regReg_completesWriting (fun a b => a &&& b) rfl⟩

/-! ### BEQ (R157) -/

/-- The sum of the signed values modulo 2^32 is the sum of the words. -/
theorem branchTarget_eq_ofInt (s : State) (offset : BitVec 13) :
    s.branchTarget offset = BitVec.ofInt 32 (s.pc.toInt + offset.toInt) := by
  rw [BitVec.ofInt_add, BitVec.ofInt_toInt]
  rfl

/-- A BEQ on equal registers whose target is misaligned raises (R157, R173). -/
theorem beq_raises {rs1 rs2 : Reg} {offset : BitVec 13} {s : State} (heq : s.readReg rs1 = s.readReg rs2)
    (hmis : (s.branchTarget offset).toNat % 4 ≠ 0) :
    Raises (.beq rs1 rs2 offset) s (.instructionAddressMisaligned (s.branchTarget offset)) :=
  raises_of_exceptionOf (if_pos ⟨heq, hmis⟩)

/-- Settles O46: the encoding drops only the offset's last bit, which is 0; `exec` parts the rule's three cases. -/
theorem beqBranchesOnEquality : Obligations.BeqBranchesOnEquality := by
  intro b12 b10 b4 b11 rs2 rs1 s offset target
  have htarget : target = s.branchTarget offset := (branchTarget_eq_ofInt s offset).symm
  have heven : evenOffset offset = true := evenOffset_append_zero _
  rw [htarget, bFormat_eq_encodeB]
  exact ⟨decodeWord_encode (i := .beq rs1 rs2 offset) heven, mainDecoder_branch, aluDecoder_compare _,
    beq_completesJumping_of_eq, beq_raises, beq_completesJumping_of_ne⟩

end Sys2Proof.Claim
end

