-- ==== Sys2Proof/Proofs/Exceptions.lean ====
section
/-! The rules of spec/60_exceptions.md about every step: which words are illegal, what a raising step leaves, where each
exception comes from, and which of several is raised. -/

namespace Sys2Proof.Claim

open Sys2Proof.Machine

/-! ### What stands at `pc` (R36, R205) and the admission of a word (R172) -/

theorem pc_eq_endPc_iff (s : State) : s.pc = s.endPc ↔ s.pc.toNat = endAddress s := by
  rw [← toNat_endPc, BitVec.toNat_inj]

theorem instrFetch_eq_none_iff_outside (s : State) : s.instrFetch = none ↔ ¬ ∃ k w, atWord s k w := by
  rw [Option.eq_none_iff_forall_ne_some, exists_comm, not_exists]
  exact forall_congr' fun w => not_congr (s.instrFetch_eq_some w)

/-- At most one word of the image stands at `pc`. -/
theorem atWord_unique {s : State} {k k' : Nat} {w w' : Word} (h : atWord s k w) (h' : atWord s k' w') : w = w' := by
  have hfetch := (s.instrFetch_eq_some w).2 ⟨k, h⟩
  have hfetch' := (s.instrFetch_eq_some w').2 ⟨k', h'⟩
  exact Option.some.inj (hfetch.symm.trans hfetch')

/-- The rows a word matches have the tier of the instruction it decodes to (R66), so ADMIT excludes all of them exactly
where it excludes every instruction the word decodes to. -/
theorem rows_excluded_iff (a : Admit) (w : Word) :
    (∀ row ∈ opcodeMap, w &&& row.mask = row.pattern → admits a row.tier = false) ↔
      ∀ i, decodeWord w = .ok i → admits a (tierOf i) = false := by
  obtain ⟨hrow_of_decode, hdecode_of_row, hrow_unique⟩ := decoderIsTheOpcodeMap w
  constructor
  · intro hrows i hdec
    obtain ⟨row, hrow, hmatch, -, htier⟩ := hrow_of_decode i hdec
    exact htier ▸ hrows row hrow hmatch
  · intro hinstr row hrow hmatch
    obtain ⟨i, hdec, -⟩ := hdecode_of_row row hrow hmatch
    obtain ⟨row', hrow', hmatch', -, htier⟩ := hrow_of_decode i hdec
    rw [hrow_unique row hrow row' hrow' hmatch hmatch', htier]
    exact hinstr i hdec

/-- Settles O9: the rows the word matches being excluded, so is what it decodes to. -/
theorem illegalWordRaises : Obligations.IllegalWordRaises := by
  intro s k w hrun hacc hat hend hrows
  have hpc : s.pc ≠ s.endPc := mt (pc_eq_endPc_iff s).1 hend
  have hfetch : s.instrFetch = some w := (s.instrFetch_eq_some w).2 ⟨k, hat⟩
  exact step_of_stepped s _ hrun hacc
    (.illegal w (pcAligned_of_atWord hacc hat) hpc hfetch ((rows_excluded_iff _ w).1 hrows))

/-! ### Outside the image (R174, R205) -/

/-- `END_PC` of an accepted map is a multiple of 4 (R39). -/
theorem endAddress_aligned {s : State} (hacc : s.configAccepted = true) : endAddress s % 4 = 0 := by
  simp only [State.configAccepted, decide_eq_true_eq] at hacc
  obtain ⟨hbase, -, -⟩ := hacc
  rw [endAddress]
  omega

/-- Settles O11: the alignment check passes at `END_PC`, and the end of the run is looked for before the image is. -/
theorem outsideTheImageEndsOrRaises : Obligations.OutsideTheImageEndsOrRaises := by
  refine fun s hrun hacc => ⟨fun hend => ?_, fun ha hout hend => ?_⟩
  · have ha : s.pc.toNat % 4 = 0 := hend ▸ endAddress_aligned hacc
    exact step_of_stepped s _ hrun hacc (.ended ha ((pc_eq_endPc_iff s).2 hend))
  · have hfetch := (instrFetch_eq_none_iff_outside s).2 hout
    exact step_of_stepped s _ hrun hacc (.outside ha hfetch (mt (pc_eq_endPc_iff s).1 hend))

/-! ### What raises in a step -/

/-- The four places of the cycle where an exception is raised (R15): the check of `pc`, the fetch, the decoding, and the
execution of an admitted instruction. -/
inductive RaisedAt (s : State) : Exception → Prop where
  | pc : s.pc.toNat % 4 ≠ 0 → RaisedAt s (.instructionAddressMisaligned s.pc)
  | fetch : s.pc.toNat % 4 = 0 → (¬ ∃ k w, atWord s k w) → s.pc.toNat ≠ endAddress s →
      RaisedAt s (.instructionAccessFault s.pc)
  | decoding (k : Nat) (w : Word) : s.pc.toNat % 4 = 0 → atWord s k w →
      (∀ i, decodeWord w = .ok i → admits s.config.admitted (tierOf i) = false) → RaisedAt s (.illegalInstruction w)
  | execution (k : Nat) (w : Word) (i : Instr) (e : Exception) : s.pc.toNat % 4 = 0 → atWord s k w →
      decodeWord w = .ok i → admits s.config.admitted (tierOf i) = true → exceptionOf i s = some e → RaisedAt s e

/-- Everything a step that raises can do. -/
theorem step_raises {s t : State} {e : Exception} (hstep : step s = .next t) (hfault : t.status = .faulted e) :
    t = s.raise e ∧ RaisedAt s e := by
  obtain ⟨hrun, -, hstepped⟩ := step_cases s t hstep
  cases hstepped with
  | misaligned hmis =>
    cases hfault
    exact ⟨rfl, .pc hmis⟩
  | ended => cases hfault
  | outside ha hfetch hpc =>
    cases hfault
    have hout := (instrFetch_eq_none_iff_outside s).1 hfetch
    exact ⟨rfl, .fetch ha hout (mt (pc_eq_endPc_iff s).2 hpc)⟩
  | illegal w ha _ hfetch hexcluded =>
    cases hfault
    obtain ⟨k, hat⟩ := (s.instrFetch_eq_some w).1 hfetch
    exact ⟨rfl, .decoding k w ha hat hexcluded⟩
  | executed w i _ ha _ hfetch hdec hadm hexec =>
    obtain ⟨k, hat⟩ := (s.instrFetch_eq_some w).1 hfetch
    rcases exec_cases i s t hexec with ⟨e', hx, rfl⟩ | ⟨-, hcompleted⟩
    · cases hfault
      exact ⟨rfl, .execution k w i e ha hat hdec hadm hx⟩
    · obtain ⟨hstatus, -, -⟩ := hcompleted.keeps
      exact nomatch hfault.symm.trans (hstatus.trans hrun)

/-- Settles O15: a step that raises leaves the raised state, and only a running machine has a step. -/
theorem raisingWritesNothing : Obligations.RaisingWritesNothing := by
  refine ⟨fun s t e hstep hfault => (step_raises hstep hfault).1, fun s t e hfault hstep => ?_⟩
  obtain ⟨hrun, -, -⟩ := step_cases s t hstep
  exact nomatch hfault.symm.trans hrun

/-! ### What an instruction raises (R173, R175 to R178) -/

section
variable {s : State} {rs1 rs2 : Reg} {imm : BitVec 12} {n : Nat} {e : Exception}

theorem loadException_cases (h : s.loadException (s.effectiveAddress rs1 imm) n = some e) :
    (e = .loadAddressMisaligned (address s rs1 imm) ∧ (address s rs1 imm).toNat % n ≠ 0) ∨
      (e = .loadAccessFault (address s rs1 imm) ∧ (address s rs1 imm).toNat % n = 0 ∧
        ¬ inDmem s (address s rs1 imm) n) := by
  rw [← inDataMemory_iff_inDmem, Bool.not_eq_true, ← effectiveAddress_eq_address]
  exact s.loadException_eq_some _ n e h

/-- A byte load is never misaligned (R175). -/
theorem loadException_byte (h : s.loadException (s.effectiveAddress rs1 imm) 1 = some e) :
    e = .loadAccessFault (address s rs1 imm) ∧ ¬ inDmem s (address s rs1 imm) 1 := by
  rcases loadException_cases h with ⟨-, hmis⟩ | ⟨he, -, hout⟩
  · exact absurd (Nat.mod_one _) hmis
  · exact ⟨he, hout⟩

/-- A load's misalignment comes before its access fault (R179). -/
theorem loadException_order (h : s.loadException (s.effectiveAddress rs1 imm) n = some e) :
    if (address s rs1 imm).toNat % n ≠ 0 then e = .loadAddressMisaligned (address s rs1 imm)
    else e = .loadAccessFault (address s rs1 imm) := by
  rcases loadException_cases h with ⟨he, hmis⟩ | ⟨he, ha, -⟩
  · rwa [if_pos hmis]
  · rwa [if_neg (not_not_intro ha)]

theorem storeException_cases (h : s.storeException (s.effectiveAddress rs1 imm) 4 = some e) :
    (e = .storeAddressMisaligned (address s rs1 imm) ∧ (address s rs1 imm).toNat % 4 ≠ 0) ∨
      (e = .storeAccessFault (address s rs1 imm) ∧ (address s rs1 imm).toNat % 4 = 0 ∧
        (¬ inDmem s (address s rs1 imm) 4 ∨
          s.config.faultOnStoreToText = true ∧ meetsImage s (address s rs1 imm) 4)) := by
  rw [← inDataMemory_iff_inDmem, Bool.not_eq_true, ← overlapsImage_iff_meetsImage s _ (by omega),
    ← effectiveAddress_eq_address]
  exact s.storeException_eq_some _ 4 e h

/-- A store's misalignment comes before its access fault (R179). -/
theorem storeException_order (h : s.storeException (s.effectiveAddress rs1 imm) 4 = some e) :
    if (address s rs1 imm).toNat % 4 ≠ 0 then e = .storeAddressMisaligned (address s rs1 imm)
    else e = .storeAccessFault (address s rs1 imm) := by
  rcases storeException_cases h with ⟨he, hmis⟩ | ⟨he, ha, -⟩
  · rwa [if_pos hmis]
  · rwa [if_neg (not_not_intro ha)]

/-- A BEQ that raises is taken, and its target is misaligned (R157, R173). -/
theorem exceptionOf_beq {offset : BitVec 13} (h : exceptionOf (.beq rs1 rs2 offset) s = some e) :
    e = .instructionAddressMisaligned (s.pc + sext32 13 offset) ∧ s.readReg rs1 = s.readReg rs2 ∧
      (s.pc + sext32 13 offset).toNat % 4 ≠ 0 := by
  obtain ⟨⟨heq, hmis⟩, he⟩ := Option.ite_none_right_eq_some.1 h
  exact ⟨(Option.some.inj he).symm, heq, hmis⟩

end

/-- Settles O20: the checks of the cycle are their own sources; what the execution raises has the instruction as its
source. -/
theorem exceptionsComeFromTheirSources : Obligations.ExceptionsComeFromTheirSources := by
  intro s t e hstep hfault
  obtain ⟨-, hraised⟩ := step_raises hstep hfault
  cases hraised with
  | pc hmis => exact ⟨hmis, .inl rfl⟩
  | fetch _ hout hend => exact ⟨rfl, hout, hend⟩
  | decoding k w _ hat hexcluded => exact ⟨k, hat, (rows_excluded_iff _ w).2 hexcluded⟩
  | execution k w i _ _ hat hdec _ hx =>
    cases i with
    | lb rd rs1 imm | lbu rd rs1 imm =>
      obtain ⟨rfl, hout⟩ := loadException_byte hx
      exact ⟨k, w, rd, rs1, imm, hat, rfl, .inl ⟨by simp [hdec], hout⟩⟩
    | lh rd rs1 imm | lhu rd rs1 imm =>
      rcases loadException_cases hx with ⟨rfl, hmis⟩ | ⟨rfl, -, hout⟩
      · exact ⟨k, w, rd, rs1, imm, hat, rfl, .inl ⟨by simp [hdec], hmis⟩⟩
      · exact ⟨k, w, rd, rs1, imm, hat, rfl, .inr (.inl ⟨by simp [hdec], hout⟩)⟩
    | lw rd rs1 imm =>
      rcases loadException_cases hx with ⟨rfl, hmis⟩ | ⟨rfl, -, hout⟩
      · exact ⟨k, w, rd, rs1, imm, hat, rfl, .inr ⟨hdec, hmis⟩⟩
      · exact ⟨k, w, rd, rs1, imm, hat, rfl, .inr (.inr ⟨hdec, hout⟩)⟩
    | sw rs2 rs1 imm =>
      rcases storeException_cases hx with ⟨rfl, hmis⟩ | ⟨rfl, -, hout⟩
      · exact ⟨k, w, rs2, rs1, imm, hat, rfl, hdec, hmis⟩
      · exact ⟨k, w, rs2, rs1, imm, hat, rfl, hdec, hout⟩
    | beq rs1 rs2 offset =>
      obtain ⟨rfl, heq, hmis⟩ := exceptionOf_beq hx
      exact ⟨hmis, .inr ⟨k, w, rs1, rs2, offset, hat, hdec, heq, rfl⟩⟩
    | addi | slti | sltiu | xori | ori | andi | slli | srli | srai | add | sub | slt | or | and => cases hx

/-! ### The order of the exceptions (R179)

What is raised where the check of one place of the cycle fails and those before it pass, whatever would fail later. -/

section
variable {s : State} {e : Exception} {k : Nat} {w : Word} {i : Instr}

theorem RaisedAt.of_misaligned (h : RaisedAt s e) (hmis : s.pc.toNat % 4 ≠ 0) :
    e = .instructionAddressMisaligned s.pc := by
  cases h with
  | pc => rfl
  | fetch ha | decoding _ _ ha | execution _ _ _ _ ha => exact absurd ha hmis

theorem RaisedAt.of_outside (h : RaisedAt s e) (ha : s.pc.toNat % 4 = 0) (hout : ¬ ∃ k w, atWord s k w) :
    e = .instructionAccessFault s.pc := by
  cases h with
  | pc hmis => exact absurd ha hmis
  | fetch => rfl
  | decoding k w _ hat | execution k w _ _ _ hat => exact absurd ⟨k, w, hat⟩ hout

theorem RaisedAt.of_illegal (h : RaisedAt s e) (ha : s.pc.toNat % 4 = 0) (hat : atWord s k w)
    (hexcluded : ∀ i, decodeWord w = .ok i → admits s.config.admitted (tierOf i) = false) :
    e = .illegalInstruction w := by
  cases h with
  | pc hmis => exact absurd ha hmis
  | fetch _ hout => exact absurd ⟨k, w, hat⟩ hout
  | decoding _ _ _ hat' => rw [atWord_unique hat hat']
  | execution _ _ i _ _ hat' hdec hadm =>
    rw [← atWord_unique hat hat'] at hdec
    exact nomatch (hexcluded i hdec).symm.trans hadm

theorem RaisedAt.of_admitted (h : RaisedAt s e) (ha : s.pc.toNat % 4 = 0) (hat : atWord s k w)
    (hdec : decodeWord w = .ok i) (hadm : admits s.config.admitted (tierOf i) = true) : exceptionOf i s = some e := by
  cases h with
  | pc hmis => exact absurd ha hmis
  | fetch _ hout => exact absurd ⟨k, w, hat⟩ hout
  | decoding _ _ _ hat' hexcluded =>
    rw [← atWord_unique hat hat'] at hexcluded
    exact nomatch (hexcluded i hdec).symm.trans hadm
  | execution _ _ _ _ _ hat' hdec' _ hx =>
    rw [← atWord_unique hat hat', hdec] at hdec'
    cases hdec'
    exact hx

end

/-- Settles O21: one clause for each place of the cycle, and of the execution one for each kind of access. -/
theorem firstExceptionInOrderIsRaised : Obligations.FirstExceptionInOrderIsRaised := by
  intro s t e hstep hfault
  obtain ⟨-, hacc, -⟩ := step_cases s t hstep
  obtain ⟨-, hraised⟩ := step_raises hstep hfault
  refine ⟨hraised.of_misaligned, hraised.of_outside, fun k w hat => ?_⟩
  have ha := pcAligned_of_atWord hacc hat
  refine ⟨fun hrows => hraised.of_illegal ha hat ((rows_excluded_iff _ w).1 hrows), fun i hdec hadm => ?_⟩
  have hx := hraised.of_admitted ha hat hdec hadm
  refine ⟨?_, ?_, ?_, ?_, ?_⟩
  · rintro rd rs1 imm (rfl | rfl) <;> exact (loadException_byte hx).1
  · rintro rd rs1 imm (rfl | rfl) <;> exact loadException_order hx
  · rintro rd rs1 imm rfl
    exact loadException_order hx
  · rintro rs2 rs1 imm rfl
    exact storeException_order hx
  · rintro rs1 rs2 offset rfl
    exact (exceptionOf_beq hx).1

end Sys2Proof.Claim
end

