-- ==== Sys2Proof/Proofs/ResetAndHazards.lean ====
section
/-! The rules of spec/70_reset_and_hazards.md: the launch state and the end of the run. -/

namespace Sys2Proof.Claim

open Sys2Proof.Machine

/-! ### The end of the run (R205) -/

/-- Of the kinds of step only the one at `END_PC` ends the run: the others raise or leave the status running. -/
theorem step_pc_of_ended {s t : State} (hstep : step s = .next t) (hended : t.status = .ended) :
    s.pc.toNat = endAddress s := by
  obtain ⟨hrun, -, hstepped⟩ := step_cases s t hstep
  cases hstepped with
  | ended _ hpc => exact (pc_eq_endPc_iff s).1 hpc
  | misaligned | outside | illegal => cases hended
  | executed w i _ _ _ _ _ _ hexec =>
    rcases exec_cases i s t hexec with ⟨e, -, rfl⟩ | ⟨-, hcompleted⟩
    · cases hended
    · obtain ⟨hstatus, -, -⟩ := hcompleted.keeps
      exact nomatch hended.symm.trans (hstatus.trans hrun)

/-- A step at `END_PC` ends the run and writes nothing else. -/
theorem step_next_of_pc_eq_endAddress {s t : State} (hstep : step s = .next t) (hpc : s.pc.toNat = endAddress s) :
    t = { s with status := .ended } := by
  obtain ⟨hrun, hacc, -⟩ := step_cases s t hstep
  have hends := (outsideTheImageEndsOrRaises s hrun hacc).1 hpc
  exact Host.Outcome.next.inj (hstep.symm.trans hends)

/-- Settles O16: a step that ends the run is at `END_PC`, and what a step at `END_PC` leaves is known whole. -/
theorem runEndsOnlyAtEndPc : Obligations.RunEndsOnlyAtEndPc := by
  refine fun s t hstep => ⟨⟨step_pc_of_ended hstep, fun hpc => ?_⟩, fun hended => ?_⟩
  · rw [step_next_of_pc_eq_endAddress hstep hpc]
  · exact step_next_of_pc_eq_endAddress hstep (step_pc_of_ended hstep hended)

/-! ### Reset (R23, R200) -/

/-- The k-th stored register is `x(k+1)` (R10). -/
theorem readReg_succ (s : State) (k : Fin 31) : s.readReg k.succ = s.regs[k] := by
  simp [State.readReg]

/-- Settles O1: the launch state holds what it is given, and reset is one of the launches. -/
theorem resetIsALaunchState : Obligations.ResetIsALaunchState := by
  refine ⟨fun c image regs mem => ?_, _, _, _, _, rfl⟩
  exact ⟨rfl, rfl, State.readReg_zero _, readReg_succ _, fun _ => rfl, rfl, rfl⟩

end Sys2Proof.Claim
end
